-- ==== Sys2Proof/Word.lean ====
section
/-! DEFINITION. Word.lean: bits, bytes and byte sequences (00_scope.md R8). -/

namespace Sys2Proof

/-- A byte, 0..255 (00_scope.md R8). Bit j of a byte b, `floor(b / 2^j) mod 2`, is `b.getLsbD j`. -/
abbrev Byte := BitVec 8

/-- A byte sequence of any length; element 0 is the first byte (00_scope.md R8). -/
abbrev ByteSeq := List Byte

/-- A host-side text string, a sequence of characters (30_encoding.md R49). -/
abbrev Token := List Char

end Sys2Proof
end

