-- ==== Sys2Proof/Config.lean ====
section
/-! DEFINITION. Config.lean: the parameters the spec leaves open (00_scope.md R7) and the free values of the host's
token parser (93_implementation_defined.md U5). The constants of 00_scope.md R6 are fixed by the spec and stand in
Machine/Params.lean. -/

namespace Sys2Proof

/-- The open size parameters of 00_scope.md R7. `none` is the unbounded value the spec gives them in the model
(92_eei_decisions.md D13, D14, D18). PACK_ORDERS, which the spec fixes to one value (D6), is the type PackOrder.
They bound premises only: no meaning reads them (notes/assumptions/3.md, 6.md). -/
structure Config.OpenParams where
  /-- IDXW: the width in bits of the bit_index operand of GETBIT. -/
  idxw : Option Nat
  /-- MAXLEN: the largest number of keystream bytes one instance may produce. -/
  maxLen : Option Nat
  /-- NINST: the number of independent instances, copies of the block numbered below it (60_exceptions.md R100). -/
  ninst : Option Nat
  deriving DecidableEq, Repr

/-- The model's own setting: all unbounded (00_scope.md R7). -/
def Config.openParams : Config.OpenParams := ⟨none, none, none⟩

/-- Whether a character other than the space and the printable ASCII characters counts as whitespace around a
bit-order token: not said (30_encoding.md R49, 91_not_in_source.md N8). A FREE VALUE (notes/assumptions/8.md). -/
opaque Config.tokenWhitespace : Char → Bool

/-- What a character outside ASCII folds to when case is ignored: not said (91_not_in_source.md N8). A FREE VALUE
(notes/assumptions/8.md). A list, since case folding may answer several characters. -/
opaque Config.tokenFold : Char → List Char

end Sys2Proof
end

