-- ==== Sys2Proof/Machine/Params.lean ====
section
/-! DEFINITION. Machine/Params.lean: the constants of the block, 00_scope.md R6, under the spec's names. The register
lengths 93, 84 and 111 stand as numerals in the register types of Machine/State.lean; `lenA` to `stateBits` name them. -/

namespace Sys2Proof.Machine.Params

@[simp] abbrev lenA : Nat := 93
@[simp] abbrev lenB : Nat := 84
@[simp] abbrev lenC : Nat := 111
@[simp] abbrev stateBits : Nat := 288
@[simp] abbrev keyBytes : Nat := 10
@[simp] abbrev ivBytes : Nat := 10
@[simp] abbrev keyBits : Nat := 80
@[simp] abbrev ivBits : Nat := 80
/-- The cells of C loaded with 0 are those below this index (C[0..107]). -/
@[simp] abbrev cZeros : Nat := 108
@[simp] abbrev warmupSteps : Nat := 1152
@[simp] abbrev bitsPerByte : Nat := 8

@[simp] abbrev aOut0 : Nat := 65
@[simp] abbrev aOut1 : Nat := 92
@[simp] abbrev bOut0 : Nat := 68
@[simp] abbrev bOut1 : Nat := 83
@[simp] abbrev cOut0 : Nat := 65
@[simp] abbrev cOut1 : Nat := 110
@[simp] abbrev aAnd0 : Nat := 90
@[simp] abbrev aAnd1 : Nat := 91
@[simp] abbrev bFwd : Nat := 77
@[simp] abbrev bAnd0 : Nat := 81
@[simp] abbrev bAnd1 : Nat := 82
@[simp] abbrev cFwd : Nat := 86
@[simp] abbrev cAnd0 : Nat := 108
@[simp] abbrev cAnd1 : Nat := 109
@[simp] abbrev aFwd : Nat := 68

end Sys2Proof.Machine.Params
end

