-- ==== Sys2Proof/Syntax.lean ====
section
/-! DEFINITION. Syntax.lean: the operations with their operands (30_encoding.md R40, R45), and the command, the word
with the operands presented beside it (R41, R45). -/

namespace Sys2Proof

/-- The bit order enumeration (10_state.md R14, 30_encoding.md R43). -/
inductive BitOrder where
  | msbFirst
  | lsbFirst
  deriving DecidableEq, Repr

/-- The pack order enumeration: its only member is LsbFirst (10_state.md R15, 30_encoding.md R44). -/
inductive PackOrder where
  | lsbFirst
  deriving DecidableEq, Repr

/-- The five operations, one constructor per row of spec/opcode_table.json, "an inductive type with the operands as
fields" (30_encoding.md R40, R41, R45). -/
inductive Instr where
  /-- GETBIT, `get_bit(bytes, bit_index, order)` (40_bit_accessor.md R55). -/
  | getbit (bytes : ByteSeq) (bitIndex : Nat) (order : BitOrder)
  /-- INIT, `new(key_raw, iv_raw, load_order, pack_order)` (41_nfsr_state_machine.md R60). -/
  | init (keyRaw ivRaw : ByteSeq) (loadOrder : BitOrder) (packOrder : PackOrder)
  /-- ADVANCE, one step of the cipher (41_nfsr_state_machine.md R66). -/
  | advance
  /-- KSBYTE, `keystream_byte()` (42_keystream_packer.md R75). -/
  | ksbyte
  /-- XORBYTE, one iteration of `xor_bytes(data)` (42_keystream_packer.md R77). -/
  | xorbyte (d : Byte)
  deriving DecidableEq, Repr

/-- A command as the host presents it: the command word `CW` and the operands beside it (30_encoding.md R41, R45).
Every operand has a place; an operation reads its own and ignores the others (notes/assumptions/11.md). -/
structure Command where
  cw : Byte
  bytes : ByteSeq
  bitIndex : Nat
  keyRaw : ByteSeq
  ivRaw : ByteSeq
  d : Byte
  deriving DecidableEq, Repr

/-- The refusal `IllegalCommand(w)`: it records the command word (60_exceptions.md R93). -/
structure IllegalCommand where
  word : Byte
  deriving DecidableEq, Repr

end Sys2Proof
end

