-- ==== Sys2Proof/WellFormed.lean ====
section
/-! DEFINITION. WellFormed.lean: which command words are legal (30_encoding.md R50), and which operands the open
parameters admit (00_scope.md R7). -/

namespace Sys2Proof

/-- `CW[7:5]` is 0 (30_encoding.md R41, R50). -/
def CommandWord.zeroFieldOk (w : Byte) : Bool := w.toNat / 32 == 0

/-- `PO = 0`: the other pack order is reserved (30_encoding.md R44, R50). -/
def CommandWord.packFieldOk (w : Byte) : Bool := w.toNat / 16 % 2 == 0

/-- `OP` is one of 0b000 .. 0b100 (30_encoding.md R42, R50). -/
def CommandWord.opFieldOk (w : Byte) : Bool := decide (w.toNat % 8 ≤ 4)

/-- `LO = 1` stands with GETBIT and INIT only (30_encoding.md R41, R50). -/
def CommandWord.loadFieldOk (w : Byte) : Bool := w.toNat / 8 % 2 == 0 || decide (w.toNat % 8 ≤ 1)

/-- A legal command word: none of the four conditions of 30_encoding.md R50 makes it illegal. -/
def CommandWord.legal (w : Byte) : Bool :=
  CommandWord.zeroFieldOk w && CommandWord.packFieldOk w && CommandWord.opFieldOk w && CommandWord.loadFieldOk w

/-- The bit index fits in IDXW bits, where IDXW is given (00_scope.md R7). -/
def Config.OpenParams.admitsIndex (p : Config.OpenParams) (i : Nat) : Bool :=
  match p.idxw with
  | none => true
  | some n => decide (i < 2 ^ n)

/-- The number of keystream bytes is within MAXLEN, where MAXLEN is given (00_scope.md R7). -/
def Config.OpenParams.admitsLength (p : Config.OpenParams) (n : Nat) : Bool :=
  match p.maxLen with
  | none => true
  | some m => decide (n ≤ m)

/-- The number names one of the NINST instances, where NINST is given (00_scope.md R7, 60_exceptions.md R100;
notes/assumptions/3.md). -/
def Config.OpenParams.admitsPort (p : Config.OpenParams) (port : Nat) : Bool :=
  match p.ninst with
  | none => true
  | some n => decide (port < n)

/-- The operands are legal under the parameters `p`. 30_encoding.md R45 makes every length, byte, bit order and pack
order legal, which the types of Instr already say; the bit index is bounded only where IDXW is given. -/
def Instr.wfUnder (p : Config.OpenParams) : Instr → Bool
  | .getbit _ bitIndex _ => p.admitsIndex bitIndex
  | .init _ _ _ _ => true
  | .advance => true
  | .ksbyte => true
  | .xorbyte _ => true

/-- Well formed under the model's own parameters (all unbounded). -/
def Instr.wf (i : Instr) : Bool := i.wfUnder Config.openParams

end Sys2Proof
end

