-- ==== Sys2Proof/Decode.lean ====
section
/-! DEFINITION. Decode.lean: the command decoder (30_encoding.md R54), total on every command word, the encoder written
from R41 to R44, and the decoder on a word of the opcode table. -/

namespace Sys2Proof

/-- Code of the `LO` field (30_encoding.md R43): MsbFirst = 0, LsbFirst = 1. -/
def orderOfLo (lo : BitVec 1) : BitOrder :=
  if lo = 0#1 then .msbFirst else .lsbFirst

/-- The decoder of 30_encoding.md R54, line by line. `.error ⟨w⟩` is `raise IllegalCommand(w)`. -/
def decode (c : Command) : Except IllegalCommand Instr :=
  let zero := c.cw.extractLsb' 5 3
  let po := c.cw.extractLsb' 4 1
  let lo := c.cw.extractLsb' 3 1
  let op := c.cw.extractLsb' 0 3
  if zero ≠ 0#3 ∨ po ≠ 0#1 then .error ⟨c.cw⟩
  else if op = 0#3 then .ok (.getbit c.bytes c.bitIndex (orderOfLo lo))
  else if op = 1#3 then .ok (.init c.keyRaw c.ivRaw (orderOfLo lo) .lsbFirst)
  else if lo ≠ 0#1 then .error ⟨c.cw⟩
  else if op = 2#3 then .ok .advance
  else if op = 3#3 then .ok .ksbyte
  else if op = 4#3 then .ok (.xorbyte c.d)
  else .error ⟨c.cw⟩

/-- The `LO` field of a bit order (30_encoding.md R43). -/
def loOfOrder : BitOrder → BitVec 1
  | .msbFirst => 0#1
  | .lsbFirst => 1#1

/-- The `PO` field of a pack order (30_encoding.md R44). -/
def poOfOrder : PackOrder → BitVec 1
  | .lsbFirst => 0#1

/-- A command word of format CW8 from its fields (30_encoding.md R41): bits 7:5 zero, `PO` bit 4, `LO` bit 3, `OP`
bits 2:0. -/
def commandWord (po lo : BitVec 1) (op : BitVec 3) : Byte := 0#3 ++ po ++ lo ++ op

/-- A command with the given word and no operands beside it: every place holds zero or the empty sequence. -/
def Command.ofWord (w : Byte) : Command :=
  { cw := w, bytes := [], bitIndex := 0, keyRaw := [], ivRaw := [], d := 0#8 }

/-- The command of an operation: its word from the rows of 30_encoding.md R42 and its operands beside it (R45). The
places of operands it does not have hold zero or the empty sequence. -/
def encode : Instr → Command
  | .getbit bytes bitIndex order =>
      { Command.ofWord (commandWord 0#1 (loOfOrder order) 0#3) with bytes := bytes, bitIndex := bitIndex }
  | .init keyRaw ivRaw loadOrder packOrder =>
      { Command.ofWord (commandWord (poOfOrder packOrder) (loOfOrder loadOrder) 1#3) with
        keyRaw := keyRaw, ivRaw := ivRaw }
  | .advance => Command.ofWord (commandWord 0#1 0#1 2#3)
  | .ksbyte => Command.ofWord (commandWord 0#1 0#1 3#3)
  | .xorbyte d => { Command.ofWord (commandWord 0#1 0#1 4#3) with d := d }

/-- The instruction the decoder reads from a word of spec/opcode_table.json, 8 bits, with no operands beside it
(notes/assumptions/11.md); none where it refuses, and for a word that is not 8 bits wide. -/
def decodeTableWord (nbits w : Nat) : Option Instr :=
  if nbits = 8 ∧ w < 256 then
    match decode (Command.ofWord (BitVec.ofNat 8 w)) with
    | .ok i => some i
    | .error _ => none
  else none

end Sys2Proof
end

