-- ==== Sys2Proof/Machine/State.lean ====
section
/-! DEFINITION. Machine/State.lean: the state as plain data (10_state.md R10 to R17, R22, R24), the host's side of the
interface (30_encoding.md R45, R46), the reasons to stop, and the state after reset. -/

namespace Sys2Proof.Machine

/-- The three shift registers (10_state.md R10 to R13). Cell `X[i]` is bit i of the bit vector. -/
structure Regs where
  /-- Register A, 93 cells (R10). -/
  a : BitVec 93
  /-- Register B, 84 cells (R11). -/
  b : BitVec 84
  /-- Register C, 111 cells (R12). -/
  c : BitVec 111
  deriving DecidableEq, Repr

/-- One running instance: "an instance with 288 bits and its configuration" (10_state.md R22). It exists exactly while
RDY = 1 (R16). -/
structure Instance where
  regs : Regs
  /-- LOAD_ORDER (R14). -/
  loadOrder : BitOrder
  /-- PACK_ORDER (R15). -/
  packOrder : PackOrder
  deriving DecidableEq, Repr

/-- The result of an operation that completed (30_encoding.md R46). -/
inductive Result where
  /-- INIT returns nothing. -/
  | nothing
  /-- GETBIT and ADVANCE return one bit. -/
  | bit (z : Bool)
  /-- KSBYTE and XORBYTE return one byte. -/
  | byte (b : Byte)
  deriving DecidableEq, Repr

/-- The refusals of the block (60_exceptions.md R92, R93, R94). -/
inductive CommandRefusal where
  /-- Raised by the decoder; records the command word (R93). -/
  | illegalCommand (w : Byte)
  /-- Raised by ADVANCE, KSBYTE and XORBYTE when RDY = 0; records nothing (R92). -/
  | notInitialised
  deriving DecidableEq, Repr

/-- What the host is answered for one command: a status, and a result only with status OK (30_encoding.md R46). -/
inductive Response where
  | ok (r : Result)
  | refused (why : CommandRefusal)
  deriving DecidableEq, Repr

/-- The status values (60_exceptions.md R94). -/
inductive Status where
  | ok
  | invalidBitOrderToken
  | illegalCommand
  | notInitialised
  deriving DecidableEq, Repr

/-- What the host can do to one instance: issue a command, or reset it (70_reset_and_hazards.md R105). -/
inductive HostEvent where
  | command (c : Command)
  | reset
  deriving DecidableEq, Repr

/-- A request of the host to instance number `port` (60_exceptions.md R100, notes/assumptions/3.md). -/
structure Request where
  port : Nat
  event : HostEvent
  deriving DecidableEq, Repr

/-- The answer to one command of instance number `port`. -/
structure Reply where
  port : Nat
  response : Response
  deriving DecidableEq, Repr

/-- The host's side of the interface, the MODEL'S OWN and no state of the block (10_state.md R21): what carries operands
in and results out, whose transport the spec leaves open (30_encoding.md R45, R46; notes/assumptions/1.md). -/
structure HostSide where
  /-- The instance the request in progress is for. -/
  port : Nat
  /-- Requests issued and not yet served, oldest first. -/
  pending : List Request
  /-- Replies given, oldest first. -/
  replies : List Reply
  deriving DecidableEq, Repr

/-- The state: the instances with RDY = 1, by number, in rising order of the numbers (any number of instances,
60_exceptions.md R100), and the host's side. An instance that is not listed has RDY = 0 (10_state.md R16, R22). -/
structure State where
  instances : List (Nat × Instance)
  host : HostSide
  deriving DecidableEq, Repr

/-- The reasons a HOST-LEVEL call fails. The machine's own `exec` and `step` never fault: the operations have no error
condition (60_exceptions.md R91). -/
inductive Fault where
  /-- `InvalidBitOrderToken(value)`: raised by the host's token parser for TRIVIUM_XOR, before any command is issued
  (60_exceptions.md R90). Safe: the spec's own error. -/
  | invalidBitOrderToken (value : Token)
  deriving DecidableEq, Repr

/-- The reasons the model gives no meaning. `exec` and `step` answer neither of them. -/
inductive Refusal where
  /-- An instruction whose arm in exec has no meaning yet. Safe. No arm is left so. -/
  | notModelled (mnemonic : String)
  /-- Raised by the host's token parser: an empty or all-whitespace bit-order token (30_encoding.md R49: "a model of the
  host should refuse to give it a meaning"; notes/assumptions/9.md). Safe. -/
  | emptyToken
  deriving DecidableEq, Repr

/-- What one step or one instruction answers. -/
abbrev Answer := Host.Outcome State Fault Refusal

/-- After reset: no instance, so RDY = 0 for every instance and A, B, C, LOAD_ORDER and PACK_ORDER hold no value
(10_state.md R22; notes/assumptions/2.md). The host has issued nothing and has been answered nothing. -/
def State.reset : State :=
  { instances := [], host := { port := 0, pending := [], replies := [] } }

end Sys2Proof.Machine
end

