-- ==== Sys2Proof/Machine/Ops.lean ====
section
/-! DEFINITION. Machine/Ops.lean: the operations on the list of instances, the reply to the host, the refusal of a command
(60_exceptions.md R97), a reset (70_reset_and_hazards.md R105) and taking up the next request. -/

namespace Sys2Proof.Machine

/-- The instance of number `k`, none where RDY = 0 (10_state.md R16). -/
def instanceAt : List (Nat × Instance) → Nat → Option Instance
  | [], _ => none
  | (j, x) :: m, k => if j = k then some x else instanceAt m k

/-- Instance `k` becomes `y`; every other is left alone. Keeps the numbers rising. -/
def putInstance : List (Nat × Instance) → Nat → Instance → List (Nat × Instance)
  | [], k, y => [(k, y)]
  | (j, x) :: m, k, y =>
      if k < j then (k, y) :: (j, x) :: m
      else if k = j then (k, y) :: m
      else (j, x) :: putInstance m k y

/-- Instance `k` exists no more. -/
def dropInstance (m : List (Nat × Instance)) (k : Nat) : List (Nat × Instance) :=
  m.filter fun e => e.1 ≠ k

/-- The canonical form of the list of instances: strictly rising numbers, so that equal collections are equal lists. -/
def canonical : List (Nat × Instance) → Bool
  | [] => true
  | [_] => true
  | (j, _) :: (k, y) :: m => decide (j < k) && canonical ((k, y) :: m)

/-- The instance the request in progress is for. -/
def State.current (s : State) : Option Instance := instanceAt s.instances s.host.port

/-- Writes the instance the request in progress is for, with RDY = 1. -/
def State.setCurrent (s : State) (x : Instance) : State :=
  { s with instances := putInstance s.instances s.host.port x }

/-- Hands the host the response to the command in progress (30_encoding.md R46). -/
def State.reply (s : State) (r : Response) : State :=
  { s with host := { s.host with replies := s.host.replies ++ [⟨s.host.port, r⟩] } }

/-- A refused command, this hardware's only kind of exception: "Nothing is saved, no mode changes, no control goes
anywhere: the command returns its status and the block is in exactly the state it was in before the command"
(60_exceptions.md R97). The host may issue any command next (R98): a next state, not a stop (notes/assumptions/4.md). -/
def refuseCommand (s : State) (why : CommandRefusal) : Answer :=
  .next (s.reply (.refused why))

/-- Reset of the instance in progress: RDY <- 0, and its registers and configuration hold no value any more
(70_reset_and_hazards.md R105, 10_state.md R22). -/
def State.resetCurrent (s : State) : State :=
  { s with instances := dropInstance s.instances s.host.port }

/-- Takes up the oldest pending request, if there is one. -/
def State.takeRequest (s : State) : Option (HostEvent × State) :=
  match s.host.pending with
  | [] => none
  | q :: rest => some (q.event, { s with host := { s.host with port := q.port, pending := rest } })

/-- Serves a command: its word is decoded first (60_exceptions.md R96), then the operation runs. -/
def serveCommand (run : Instr → State → Answer) (c : Command) (s : State) : Answer :=
  match decode c with
  | .error e => refuseCommand s (.illegalCommand e.word)
  | .ok i => run i s

/-- Serves one event of the host for the instance in progress. -/
def serveEvent (run : Instr → State → Answer) (e : HostEvent) (s : State) : Answer :=
  match e with
  | .command c => serveCommand run c s
  | .reset => .next s.resetCurrent

/-- The request that issues operation `i` to instance `port`. -/
def requestOf (port : Nat) (i : Instr) : Request := ⟨port, .command (encode i)⟩

end Sys2Proof.Machine
end

