-- ==== Sys2Proof/Machine/Operands.lean ====
section
/-! DEFINITION. Machine/Operands.lean: how operands are read: a bit of a byte sequence (40_bit_accessor.md R55), a key or
IV normalised to ten bytes (20_memory.md R27), and the cells of a register (00_scope.md R8). -/

namespace Sys2Proof.Machine

/-- Reads cell i of a register, `X[i]` (00_scope.md R8). -/
def cell {n : Nat} (x : BitVec n) (i : Nat) : Bool := x.getLsbD i

/-- The register of n cells whose cell i holds `f i`. -/
def ofCells : (n : Nat) → (Nat → Bool) → BitVec n
  | 0, _ => 0#0
  | n + 1, f => (ofCells n f).cons (f n)

/-- Position `bit_in_byte` of a byte under a bit order: bit `7 - p` under MsbFirst, bit `p` under LsbFirst
(30_encoding.md R47). -/
def bitInByte (b : Byte) (p : Nat) : BitOrder → Bool
  | .msbFirst => b.getLsbD (7 - p)
  | .lsbFirst => b.getLsbD p

/-- GETBIT's value (40_bit_accessor.md R55): bit `i` of the sequence, 0 where `i / 8 >= len(bytes)`. -/
def getBit (bytes : ByteSeq) (i : Nat) (order : BitOrder) : Bool :=
  match bytes[i / 8]? with
  | none => false
  | some b => bitInByte b (i % 8) order

/-- `norm10` (20_memory.md R27): the first 10 bytes, or the bytes and then zero bytes up to 10. -/
def norm10 (x : ByteSeq) : ByteSeq :=
  if x.length ≥ Params.keyBytes then x.take Params.keyBytes
  else x ++ List.replicate (Params.keyBytes - x.length) 0#8

/-- `rev8(b)`: the byte whose bit j is bit 7 - j of b (40_bit_accessor.md R57). -/
def rev8 (b : Byte) : Byte := ofCells 8 fun j => b.getLsbD (7 - j)

end Sys2Proof.Machine
end

