-- ==== Sys2Proof/Machine/BitAccessor.lean ====
section
/-! DEFINITION. Machine/BitAccessor.lean: the bit accessor, GETBIT (40_bit_accessor.md). -/

namespace Sys2Proof.Machine

/-- GETBIT (40_bit_accessor.md R55, R56): returns the bit, reads no state and writes none, needs no instance. -/
def execGetbit (bytes : ByteSeq) (bitIndex : Nat) (order : BitOrder) (s : State) : Answer :=
  .next (s.reply (.ok (.bit (getBit bytes bitIndex order))))

end Sys2Proof.Machine
end

