-- ==== Sys2Proof/Machine/Flags.lean ====
section
/-! DEFINITION. Machine/Flags.lean: the block has no status flags and no operation sets a carry, a zero or an overflow
flag (10_state.md R19). What there is: the flag RDY (R16), the check of it, and the status of a reply
(60_exceptions.md R94). -/

namespace Sys2Proof.Machine

/-- RDY of instance `k` (10_state.md R16): 1 exactly when the instance exists. -/
def State.rdy (s : State) (k : Nat) : Bool := (instanceAt s.instances k).isSome

/-- An operation that needs RDY = 1: refused NotInitialised when RDY = 0 (60_exceptions.md R92), else `f` runs on the
instance, its new contents are written back and its result is returned with status OK. -/
def onInstance (s : State) (f : Instance → Result × Instance) : Answer :=
  match s.current with
  | none => refuseCommand s .notInitialised
  | some x => .next ((s.setCurrent (f x).2).reply (.ok (f x).1))

/-- The status a response carries (60_exceptions.md R94). -/
def Response.status : Response → Status
  | .ok _ => .ok
  | .refused (.illegalCommand _) => .illegalCommand
  | .refused .notInitialised => .notInitialised

/-- The status of the host-level error (60_exceptions.md R94). -/
def Fault.status : Fault → Status
  | .invalidBitOrderToken _ => .invalidBitOrderToken

/-- The numeric status codes, the spec's own (60_exceptions.md R94). -/
def Status.code : Status → Nat
  | .ok => 0
  | .invalidBitOrderToken => 1
  | .illegalCommand => 2
  | .notInitialised => 3

end Sys2Proof.Machine
end

