-- ==== Sys2Proof/Machine/Cipher.lean ====
section
/-! DEFINITION. Machine/Cipher.lean: the cipher state machine, ADVANCE and INIT (41_nfsr_state_machine.md). -/

namespace Sys2Proof.Machine

/-- `ADVANCE_CORE` (41_nfsr_state_machine.md R66): the output bit z and the registers after one step. All reads are of
the registers before the step. `shiftConcat` moves cell i - 1 to cell i, drops the last cell and puts the new bit into
cell 0. -/
def Regs.advance (r : Regs) : Bool × Regs :=
  let t1 := cell r.a Params.aOut0 ^^ cell r.a Params.aOut1
  let t2 := cell r.b Params.bOut0 ^^ cell r.b Params.bOut1
  let t3 := cell r.c Params.cOut0 ^^ cell r.c Params.cOut1
  let z := t1 ^^ t2 ^^ t3
  let t1' := t1 ^^ (cell r.a Params.aAnd0 && cell r.a Params.aAnd1) ^^ cell r.b Params.bFwd
  let t2' := t2 ^^ (cell r.b Params.bAnd0 && cell r.b Params.bAnd1) ^^ cell r.c Params.cFwd
  let t3' := t3 ^^ (cell r.c Params.cAnd0 && cell r.c Params.cAnd1) ^^ cell r.a Params.aFwd
  (z, { a := r.a.shiftConcat t3', b := r.b.shiftConcat t1', c := r.c.shiftConcat t2' })

/-- n advances with every output bit discarded. -/
def Regs.discard : Nat → Regs → Regs
  | 0, r => r
  | n + 1, r => Regs.discard n r.advance.2

/-- n advances: the output bits, first produced first, and the registers after them. -/
def Regs.produce : Nat → Regs → List Bool × Regs
  | 0, r => ([], r)
  | n + 1, r => (r.advance.1 :: (Regs.produce n r.advance.2).1, (Regs.produce n r.advance.2).2)

/-- Steps 2, 3 and 4 of INIT on the normalised key K and IV V (41_nfsr_state_machine.md R62, R63): key bits into
A[0..79], IV bits into B[0..79], ones into C[108..110], zeros everywhere else. -/
def loadRegs (K V : ByteSeq) (order : BitOrder) : Regs :=
  { a := ofCells 93 fun i => decide (i < Params.keyBits) && getBit K i order
    b := ofCells 84 fun i => decide (i < Params.ivBits) && getBit V i order
    c := ofCells 111 fun i => decide (Params.cZeros ≤ i) }

/-- The instance INIT constructs (41_nfsr_state_machine.md R60): normalise (R61), load (R62, R63), 1152 discarded
advances (R64), and the configuration fields from their operands (10_state.md R14, R15). -/
def newInstance (keyRaw ivRaw : ByteSeq) (loadOrder : BitOrder) (packOrder : PackOrder) : Instance :=
  { regs := Regs.discard Params.warmupSteps (loadRegs (norm10 keyRaw) (norm10 ivRaw) loadOrder)
    loadOrder := loadOrder
    packOrder := packOrder }

/-- INIT (41_nfsr_state_machine.md R60, R65): constructs a new instance in place of what there was, whatever RDY is, sets
RDY and returns nothing. -/
def execInit (keyRaw ivRaw : ByteSeq) (loadOrder : BitOrder) (packOrder : PackOrder) (s : State) : Answer :=
  .next ((s.setCurrent (newInstance keyRaw ivRaw loadOrder packOrder)).reply (.ok .nothing))

/-- One advance of an instance; its configuration is left alone. -/
def Instance.advance (x : Instance) : Bool × Instance :=
  (x.regs.advance.1, { x with regs := x.regs.advance.2 })

/-- ADVANCE (41_nfsr_state_machine.md R66): refused when RDY = 0, else one advance, returning z. -/
def execAdvance (s : State) : Answer :=
  onInstance s fun x => (.bit x.advance.1, x.advance.2)

end Sys2Proof.Machine
end

