-- ==== Sys2Proof/Machine/Packer.lean ====
section
/-! DEFINITION. Machine/Packer.lean: the keystream/XOR facade, KSBYTE and XORBYTE (42_keystream_packer.md). -/

namespace Sys2Proof.Machine

/-- The byte `z_0 + 2*z_1 + 4*z_2 + ...` of bits in the order they were produced (30_encoding.md R48). -/
def packLsbFirst : List Bool → Byte
  | [] => 0#8
  | z :: zs => (if z then 1#8 else 0#8) + 2#8 * packLsbFirst zs

/-- Assembly of a byte in a pack order; LsbFirst is the only one (10_state.md R15). -/
def packBits : PackOrder → List Bool → Byte
  | .lsbFirst, zs => packLsbFirst zs

/-- `KSBYTE_CORE` (42_keystream_packer.md R75): eight advances, their bits packed in the instance's pack order. -/
def Instance.ksByte (x : Instance) : Byte × Instance :=
  (packBits x.packOrder (x.regs.produce Params.bitsPerByte).1,
    { x with regs := (x.regs.produce Params.bitsPerByte).2 })

/-- KSBYTE (42_keystream_packer.md R75): refused when RDY = 0, else returns the next keystream byte. -/
def execKsbyte (s : State) : Answer :=
  onInstance s fun x => (.byte x.ksByte.1, x.ksByte.2)

/-- One data byte XORed with the next keystream byte (42_keystream_packer.md R77). -/
def Instance.xorByte (x : Instance) (d : Byte) : Byte × Instance :=
  (d ^^^ x.ksByte.1, x.ksByte.2)

/-- XORBYTE (42_keystream_packer.md R77): refused when RDY = 0, else returns `d` XOR the next keystream byte. -/
def execXorbyte (d : Byte) (s : State) : Answer :=
  onInstance s fun x => (.byte (x.xorByte d).1, (x.xorByte d).2)

end Sys2Proof.Machine
end

