-- ==== Sys2Proof/Machine/Dispatch.lean ====
section
/-! DEFINITION. Machine/Dispatch.lean: one arm per operation, each one call of its meaning. -/

namespace Sys2Proof.Machine

def exec (i : Instr) (s : State) : Host.Outcome State Fault Refusal :=
  match i with
  | .getbit bytes bitIndex order => Sys2Proof.Machine.execGetbit bytes bitIndex order s
  | .init keyRaw ivRaw loadOrder packOrder => Sys2Proof.Machine.execInit keyRaw ivRaw loadOrder packOrder s
  | .advance => Sys2Proof.Machine.execAdvance s
  | .ksbyte => Sys2Proof.Machine.execKsbyte s
  | .xorbyte d => Sys2Proof.Machine.execXorbyte d s

end Sys2Proof.Machine
end

