-- ==== Sys2Proof/Machine/Step.lean ====
section
/-! DEFINITION. Machine/Step.lean: one step serves the oldest pending request of the host (20_memory.md R36), and a word
of the opcode table placed as the request the next step serves. -/

namespace Sys2Proof.Machine

/-- One step: the oldest pending request takes effect, completely (20_memory.md R33, R36). With nothing pending nothing
changes: only an operation or a reset changes an instance (60_exceptions.md R95; notes/assumptions/5.md). -/
def step (s : State) : Host.Outcome State Fault Refusal :=
  match s.takeRequest with
  | none => .next s
  | some (e, s') => serveEvent exec e s'

/-- The command of table word `w` (its low 8 bits, the only width a command has; no operands beside it) issued to the
instance in progress ahead of every other request, so that the very next step runs it (notes/assumptions/1.md). -/
def State.withFetchWord (s : State) (nbits w : Nat) : State :=
  { s with host :=
    { s.host with
      pending := ⟨s.host.port, .command (Command.ofWord (BitVec.ofNat 8 (w % 2 ^ nbits)))⟩ :: s.host.pending } }

end Sys2Proof.Machine
end

