-- ==== Sys2Proof/Machine/Token.lean ====
section
/-! DEFINITION. Machine/Token.lean: the host-side reading of the bit-order token (30_encoding.md R49) and what the error
message must contain (60_exceptions.md R90). Host software, outside the block: `step` calls none of it. -/

namespace Sys2Proof.Machine

/-- Whether a character is whitespace around a token: a space is (R49's examples), a printable ASCII character is not,
and of any other character the spec does not say (notes/assumptions/8.md). -/
def isTokenSpace (ch : Char) : Bool :=
  if ch = ' ' then true
  else if 33 ≤ ch.toNat ∧ ch.toNat ≤ 126 then false
  else Config.tokenWhitespace ch

/-- A character with its case ignored: A to Z fold to a to z, any other ASCII character to itself, and of a character
outside ASCII the spec does not say (notes/assumptions/8.md). -/
def foldCase (ch : Char) : List Char :=
  if 65 ≤ ch.toNat ∧ ch.toNat ≤ 90 then [Char.ofNat (ch.toNat + 32)]
  else if ch.toNat < 128 then [ch]
  else Config.tokenFold ch

/-- The token less the whitespace that surrounds it. -/
def trimToken (t : Token) : Token :=
  ((t.dropWhile isTokenSpace).reverse.dropWhile isTokenSpace).reverse

/-- "case-insensitive, surrounding whitespace ignored" (30_encoding.md R49). -/
def normaliseToken (t : Token) : Token := (trimToken t).flatMap foldCase

/-- The accepted spellings (30_encoding.md R49): `msb`, `msb-first`, `msb_first`. -/
def msbSpellings : List Token :=
  [['m', 's', 'b'], ['m', 's', 'b', '-', 'f', 'i', 'r', 's', 't'], ['m', 's', 'b', '_', 'f', 'i', 'r', 's', 't']]

/-- The accepted spellings (30_encoding.md R49): `lsb`, `lsb-first`, `lsb_first`. -/
def lsbSpellings : List Token :=
  [['l', 's', 'b'], ['l', 's', 'b', '-', 'f', 'i', 'r', 's', 't'], ['l', 's', 'b', '_', 'f', 'i', 'r', 's', 't']]

/-- The reading of the optional `bit_order` value (30_encoding.md R49): unset is MsbFirst, an accepted spelling its
order, any other non-empty string the error `InvalidBitOrderToken`. A token that is empty, or empty after whitespace is
removed, is refused a meaning (92_eei_decisions.md D17). -/
def parseBitOrder : Option Token → Host.Outcome BitOrder Fault Refusal
  | none => .next .msbFirst
  | some t =>
      if trimToken t = [] then .refused .emptyToken
      else if normaliseToken t ∈ msbSpellings then .next .msbFirst
      else if normaliseToken t ∈ lsbSpellings then .next .lsbFirst
      else .fault (.invalidBitOrderToken t)

/-- The messages the error may carry: any text that contains the offending value and the two canonical forms `msb` and
`lsb` (60_exceptions.md R90, 93_implementation_defined.md U6; notes/assumptions/10.md). -/
def Fault.messageAllowed : Fault → Token → Bool
  | .invalidBitOrderToken value, message =>
      decide (value <:+: message) && decide (['m', 's', 'b'] <:+: message) && decide (['l', 's', 'b'] <:+: message)

end Sys2Proof.Machine
end

