-- ==== Sys2Proof/Machine/Composite.lean ====
section
/-! DEFINITION. Machine/Composite.lean: the composite operations XORBYTES and TRIVIUM_XOR, each as its expansion into
commands (30_encoding.md R53) and as the function it computes (42_keystream_packer.md R78, R80). -/

namespace Sys2Proof.Machine

/-- The loop of XORBYTES on a running instance (42_keystream_packer.md R78): result bytes in the order of the data
bytes, and the instance after them. -/
def Instance.xorBytes : Instance → ByteSeq → ByteSeq × Instance
  | x, [] => ([], x)
  | x, d :: ds => ((x.xorByte d).1 :: ((x.xorByte d).2.xorBytes ds).1, ((x.xorByte d).2.xorBytes ds).2)

/-- XORBYTES as one operation with one RDY check, refused as a whole when RDY = 0, for empty data too
(42_keystream_packer.md R78; 90_conflicts.md C11). -/
def xorBytesWhole (current : Option Instance) (data : ByteSeq) : Except CommandRefusal (ByteSeq × Instance) :=
  match current with
  | none => .error .notInitialised
  | some x => .ok (x.xorBytes data)

/-- XORBYTES as commands: one XORBYTE per data byte, ascending (30_encoding.md R53). -/
def xorBytesRequests (port : Nat) (data : ByteSeq) : List Request :=
  data.map fun d => requestOf port (.xorbyte d)

/-- TRIVIUM_XOR as commands for instance `port`: the token is read first, and with an invalid one no command is issued;
then one INIT and the XORBYTEs (30_encoding.md R53, 42_keystream_packer.md R80, R86). -/
def triviumXorRequests (port : Nat) (key iv data : ByteSeq) (bitOrder : Option Token) :
    Host.Outcome (List Request) Fault Refusal :=
  match parseBitOrder bitOrder with
  | .next order => .next (requestOf port (.init key iv order .lsbFirst) :: xorBytesRequests port data)
  | .fault f => .fault f
  | .refused r => .refused r

/-- TRIVIUM_XOR (42_keystream_packer.md R80): a fresh instance at every call, of which only the result bytes are
answered. -/
def triviumXor (key iv data : ByteSeq) (bitOrder : Option Token) : Host.Outcome ByteSeq Fault Refusal :=
  match parseBitOrder bitOrder with
  | .next order => .next ((newInstance key iv order .lsbFirst).xorBytes data).1
  | .fault f => .fault f
  | .refused r => .refused r

end Sys2Proof.Machine
end

