-- ==== Sys2Proof/Safety.lean ====
section
/-! DEFINITION. Safety.lean: the terms claims use: the invariant of the state, the step backwards of
41_nfsr_state_machine.md R71, the keystream of a register state (R72), and runs of requests. -/

namespace Sys2Proof.Safety

open Sys2Proof.Machine

/-- The three registers are all zero, the fixed point of the cipher that INIT never produces
(41_nfsr_state_machine.md R70). -/
def allZero (r : Regs) : Bool := r.a == 0#93 && r.b == 0#84 && r.c == 0#111

/-- The invariant of the state: the list of instances is in canonical form, and no instance has all-zero registers
(41_nfsr_state_machine.md R70). -/
def Inv (s : State) : Prop :=
  canonical s.instances = true ∧ ∀ k x, instanceAt s.instances k = some x → allZero x.regs = false

/-- Every instance that exists and every instance a pending request is for is one of the NINST instances
(00_scope.md R7, 60_exceptions.md R100; notes/assumptions/3.md): the premise that bounds the model to hardware with
that many copies of the block. -/
def withinInstances (p : Config.OpenParams) (s : State) : Prop :=
  (∀ k x, instanceAt s.instances k = some x → p.admitsPort k = true) ∧
    ∀ q ∈ s.host.pending, p.admitsPort q.port = true

/-- The registers before a step, from those after it (41_nfsr_state_machine.md R71). No operation of the block computes
it. -/
def retreat (r : Regs) : Regs :=
  { a := ofCells 93 fun i =>
      if i < 92 then cell r.a (i + 1)
      else cell r.b 0 ^^ cell r.a 66 ^^ (cell r.a 91 && cell r.a 92) ^^ cell r.b 78
    b := ofCells 84 fun i =>
      if i < 83 then cell r.b (i + 1)
      else cell r.c 0 ^^ cell r.b 69 ^^ (cell r.b 82 && cell r.b 83) ^^ cell r.c 87
    c := ofCells 111 fun i =>
      if i < 110 then cell r.c (i + 1)
      else cell r.a 0 ^^ cell r.c 66 ^^ (cell r.c 109 && cell r.c 110) ^^ cell r.a 69 }

/-- `S_n` of the numbering of the keystream (41_nfsr_state_machine.md R72): the registers after n advances from `S_0`. -/
def stateAfter (r : Regs) (n : Nat) : Regs := (fun q : Regs => q.advance.2)^[n] r

/-- `z_n` (41_nfsr_state_machine.md R72), for n >= 1: the output of the step from `S_(n-1)`. -/
def keystreamBit (r : Regs) (n : Nat) : Bool := (stateAfter r (n - 1)).advance.1

/-- How many keystream bits an operation consumes: 1 for ADVANCE, 8 for KSBYTE and XORBYTE, and none for the others
(41_nfsr_state_machine.md R72, 70_reset_and_hazards.md R112). -/
def bitsConsumed : Instr → Nat
  | .getbit _ _ _ => 0
  | .init _ _ _ _ => 0
  | .advance => 1
  | .ksbyte => 8
  | .xorbyte _ => 8

/-- The operations that need RDY = 1 (60_exceptions.md R92). -/
def needsReady : Instr → Bool
  | .getbit _ _ _ => false
  | .init _ _ _ _ => false
  | .advance => true
  | .ksbyte => true
  | .xorbyte _ => true

/-- An event that issues INIT, in any bit order, with any operands. -/
def issuesInit (e : HostEvent) : Bool :=
  match e with
  | .reset => false
  | .command c =>
      match decode c with
      | .ok (.init _ _ _ _) => true
      | .ok (.getbit _ _ _) => false
      | .ok .advance => false
      | .ok .ksbyte => false
      | .ok (.xorbyte _) => false
      | .error _ => false

/-- The state the host makes of `s` by issuing exactly the requests `qs` with nothing else pending. -/
def withRequests (s : State) (qs : List Request) : State :=
  { s with host := { s.host with pending := qs } }

/-- The responses given after the first `n` replies, oldest first. -/
def responsesFrom (n : Nat) (s : State) : List Response := (s.host.replies.drop n).map (·.response)

/-- The replies of one instance, oldest first. -/
def repliesOf (k : Nat) (s : State) : List Response :=
  (s.host.replies.filter fun p => p.port == k).map (·.response)

/-- `n` steps of the machine behind the host's interface. -/
def runSteps (n : Nat) (s : State) : Host.Outcome State Fault Refusal :=
  Host.Core.run Sys2Proof.core n s

/-- The next state of an answer, where it is one. -/
def nextState {σ φ ρ : Type} : Host.Outcome σ φ ρ → Option σ
  | .next s => some s
  | .fault _ => none
  | .refused _ => none

end Sys2Proof.Safety
end

