-- ==== Sys2Proof/Certificates/Slice0/Obligations.lean ====
section
/-! DEFINITION. Certificates/Slice0/Obligations.lean: the statements for the provers. Each docstring names the rule of
spec/ it formalises, and says where it rests on a decision or an inference of the spec or of the model. -/

open Sys2Proof Sys2Proof.Machine Sys2Proof.Safety

/-! ### Reset -/

/-- Reset values (10_state.md R22, the spec's decision D9; notes/assumptions/2.md): RDY = 0 for every instance, no
instance holds registers or configuration, and (the model's choice, notes/assumptions/1.md) nothing is pending and
nothing has been answered. -/
def Obligations.ResetHasNoInstance : Prop :=
  (∀ k, State.reset.rdy k = false ∧ instanceAt State.reset.instances k = none) ∧
    State.reset.host.pending = [] ∧ State.reset.host.replies = []

/-- A reset of one instance (70_reset_and_hazards.md R105, decision D9): RDY <- 0 and its registers and configuration
are gone; every other instance is as before. That it has no reply is the model's choice (notes/assumptions/12.md). -/
def Obligations.ResetEventEndsOneInstance : Prop :=
  ∀ (s : State) (k : Nat) (rest : List Request), s.host.pending = ⟨k, .reset⟩ :: rest →
    ∃ t, step s = .next t ∧ t.rdy k = false ∧ instanceAt t.instances k = none ∧
      (∀ j, j ≠ k → instanceAt t.instances j = instanceAt s.instances j) ∧
      t.host.pending = rest ∧ t.host.replies = s.host.replies

/-! ### Commands, decoding and steps -/

/-- The seven legal command words (30_encoding.md R42, decision D5) decode to their operations, with the operands
presented beside them. -/
def Obligations.LegalWordsDecodeToTheirOperations : Prop :=
  ∀ c : Command,
    (c.cw = 0b00000000#8 → decode c = .ok (.getbit c.bytes c.bitIndex .msbFirst)) ∧
    (c.cw = 0b00001000#8 → decode c = .ok (.getbit c.bytes c.bitIndex .lsbFirst)) ∧
    (c.cw = 0b00000001#8 → decode c = .ok (.init c.keyRaw c.ivRaw .msbFirst .lsbFirst)) ∧
    (c.cw = 0b00001001#8 → decode c = .ok (.init c.keyRaw c.ivRaw .lsbFirst .lsbFirst)) ∧
    (c.cw = 0b00000010#8 → decode c = .ok .advance) ∧
    (c.cw = 0b00000011#8 → decode c = .ok .ksbyte) ∧
    (c.cw = 0b00000100#8 → decode c = .ok (.xorbyte c.d))

/-- Decode and encode agree for every instruction, every operand at every value (30_encoding.md R41 to R45, R54,
decision D5). Every instruction of the type is well formed under the model's parameters, and the statement says so. -/
def Obligations.DecodeOfEncodeIsTheInstruction : Prop :=
  ∀ i : Instr, i.wf = true ∧ decode (encode i) = .ok i

/-- The other direction (30_encoding.md R41, R45, R54, decision D5): what decodes to an instruction has that
instruction's command word, and the operands the operation has are those presented. That `encode` puts the empty
sequence or zero in the operand places an operation lacks is the model's choice (notes/assumptions/11.md). -/
def Obligations.EncodeOfDecodeIsTheCommand : Prop :=
  ∀ (c : Command) (i : Instr), decode c = .ok i →
    match i with
    | .getbit _ _ _ => encode i = { Command.ofWord c.cw with bytes := c.bytes, bitIndex := c.bitIndex }
    | .init _ _ _ _ => encode i = { Command.ofWord c.cw with keyRaw := c.keyRaw, ivRaw := c.ivRaw }
    | .advance => encode i = Command.ofWord c.cw
    | .ksbyte => encode i = Command.ofWord c.cw
    | .xorbyte _ => encode i = { Command.ofWord c.cw with d := c.d }

/-- Illegal command words (30_encoding.md R50, R42, decision D5): the decoder refuses exactly the words that one of the
four conditions of R50 makes illegal, recording the word, and the legal words are the seven of R42. -/
def Obligations.DecoderRefusesExactlyTheIllegalWords : Prop :=
  (∀ c : Command, (∃ i, decode c = .ok i) ↔ CommandWord.legal c.cw = true) ∧
    (∀ c : Command, decode c = .error ⟨c.cw⟩ ↔ CommandWord.legal c.cw = false) ∧
    ∀ w : Byte, CommandWord.legal w = true ↔
      w ∈ [0x00#8, 0x08#8, 0x01#8, 0x09#8, 0x02#8, 0x03#8, 0x04#8]

/-- A step runs the decoded instruction: when the oldest pending request is a command that decodes to `i`, the step is
`exec i` with the request's instance in progress and the request taken off the queue (20_memory.md R36; the queue is the
model's own, notes/assumptions/1.md). -/
def Obligations.StepRunsTheDecodedInstruction : Prop :=
  ∀ (s : State) (k : Nat) (c : Command) (rest : List Request) (i : Instr),
    s.host.pending = ⟨k, .command c⟩ :: rest → decode c = .ok i →
      step s = exec i { s with host := { s.host with port := k, pending := rest } }

/-- IllegalCommand (60_exceptions.md R93, decision D8): whatever RDY is, an illegal command word changes no instance and
returns no result, and its reply is the refusal with the word. -/
def Obligations.IllegalCommandIsRefusedWithItsWord : Prop :=
  ∀ (s : State) (k : Nat) (c : Command) (rest : List Request),
    s.host.pending = ⟨k, .command c⟩ :: rest → CommandWord.legal c.cw = false →
      ∃ t, step s = .next t ∧ t.instances = s.instances ∧
        t.host = { port := k, pending := rest,
                   replies := s.host.replies ++ [⟨k, .refused (.illegalCommand c.cw)⟩] }

/-- NotInitialised (60_exceptions.md R92, decision D8): an operation is refused exactly when it is ADVANCE, KSBYTE or
XORBYTE and RDY = 0; then no instance is written, and the one new reply is the refusal. No operation answers
IllegalCommand. -/
def Obligations.NotInitialisedExactlyWithoutAnInstance : Prop :=
  ∀ (i : Instr) (s : State), ∃ t r, exec i s = .next t ∧
    t.host.replies = s.host.replies ++ [⟨s.host.port, r⟩] ∧
    (r = .refused .notInitialised ↔ needsReady i = true ∧ s.rdy s.host.port = false) ∧
    (r = .refused .notInitialised → t.instances = s.instances) ∧
    ∀ w, r ≠ .refused (.illegalCommand w)

/-- Every step answers a next state, with one request fewer pending; with none pending it changes nothing
(60_exceptions.md R91, R95). That a refused or illegal command answers a next state too is read from R94, R97 and R98
(60_exceptions.md, sections 2 and 4; notes/assumptions/4.md, DEDUCED). That a step takes one request off a queue is the
model's choice (notes/assumptions/1.md), and so is that an idle step is a step (notes/assumptions/5.md). -/
def Obligations.EveryStepAnswersANextState : Prop :=
  ∀ s : State, ∃ t, step s = .next t ∧ t.host.pending = s.host.pending.tail ∧ (s.host.pending = [] → t = s)

/-- Every command is answered once, to the instance it was issued to (30_encoding.md R46, decision D3), and its status
is one of OK, IllegalCommand and NotInitialised, with codes 0, 2 and 3 (60_exceptions.md R94, decision D8). -/
def Obligations.EveryCommandHasOneReply : Prop :=
  ∀ (s : State) (k : Nat) (c : Command) (rest : List Request), s.host.pending = ⟨k, .command c⟩ :: rest →
    ∃ t r, step s = .next t ∧ t.host.replies = s.host.replies ++ [⟨k, r⟩] ∧
      (r.status.code = 0 ∨ r.status.code = 2 ∨ r.status.code = 3) ∧
      (r.status.code = 0 ↔ ∃ v, r = .ok v)

/-- A refusal leaves no trace in the block (60_exceptions.md R97) and the refused command is refused again when it is
issued again (R98). -/
def Obligations.RefusalLeavesNoTraceAndRepeats : Prop :=
  ∀ (s t : State) (q : Request) (rest : List Request) (why : CommandRefusal),
    s.host.pending = q :: rest → step s = .next t →
    t.host.replies = s.host.replies ++ [⟨q.port, .refused why⟩] →
      t.instances = s.instances ∧
        ∃ u, step (withRequests t [q]) = .next u ∧ u.instances = s.instances ∧
          u.host.replies = t.host.replies ++ [⟨q.port, .refused why⟩]

/-! ### GETBIT -/

/-- GETBIT (40_bit_accessor.md R55; the general position and the out-of-range test are the spec's inference and its
decision D12): completes in every state, with or without an instance, and changes nothing; bit
`floor(b / 2^j) mod 2` of the addressed byte, j = 7 - p under MsbFirst and p under LsbFirst, or 0 past the end. -/
def Obligations.GetbitReturnsTheAddressedBit : Prop :=
  ∀ (bytes : ByteSeq) (i : Nat) (order : BitOrder) (s : State), ∃ z : Bool,
    exec (.getbit bytes i order) s =
        .next { s with host := { s.host with replies := s.host.replies ++ [⟨s.host.port, .ok (.bit z)⟩] } } ∧
      (bytes.length ≤ i / 8 → z = false) ∧
      ∀ b : Byte, bytes[i / 8]? = some b →
        z = match order with
            | .msbFirst => decide (b.toNat / 2 ^ (7 - i % 8) % 2 = 1)
            | .lsbFirst => decide (b.toNat / 2 ^ (i % 8) % 2 = 1)

/-- Relation between the two orders (40_bit_accessor.md R57, an inference of the spec): LsbFirst on a sequence is
MsbFirst on the sequence with every byte bit-reversed, and bit j of `rev8 b` is bit 7 - j of b. -/
def Obligations.LsbFirstIsMsbFirstOfReversedBytes : Prop :=
  (∀ (s : ByteSeq) (i : Nat), getBit s i .lsbFirst = getBit (s.map rev8) i .msbFirst) ∧
    ∀ (b : Byte) (j : Nat), j < 8 → (rev8 b).getLsbD j = b.getLsbD (7 - j)

/-- The two mechanisms for short keys agree (20_memory.md R31, an inference of the spec). -/
def Obligations.ZeroPaddingAgreesWithOutOfRangeReads : Prop :=
  ∀ (x : ByteSeq) (i : Nat) (order : BitOrder), i < 80 →
    getBit (norm10 x) i order = getBit (x.take (min x.length 10)) i order

/-! ### INIT -/

/-- Normalisation (20_memory.md R27): exactly 10 bytes for every input; the first 10 bytes, or the bytes and zero bytes
after them; byte by byte; no length is refused; key and IV each on its own; keys that agree in their first 10 bytes give
the same instance; and the rule's examples. -/
def Obligations.NormalisationGivesTenBytes : Prop :=
  (∀ x : ByteSeq, (norm10 x).length = 10 ∧
    (10 ≤ x.length → norm10 x = x.take 10) ∧
    (x.length < 10 → norm10 x = x ++ List.replicate (10 - x.length) 0#8) ∧
    (x.length = 10 → norm10 x = x) ∧
    (∀ i, i < min x.length 10 → (norm10 x)[i]? = x[i]?) ∧
    ∀ i, min x.length 10 ≤ i → i < 10 → (norm10 x)[i]? = some 0#8) ∧
  norm10 [] = List.replicate 10 0#8 ∧
  (∀ (key key' iv : ByteSeq) (o : BitOrder) (p : PackOrder) (s : State),
    10 ≤ key.length → 10 ≤ key'.length → key.take 10 = key'.take 10 →
      exec (.init key iv o p) s = exec (.init key' iv o p) s) ∧
  (∀ (key iv : ByteSeq) (o : BitOrder) (p : PackOrder) (s : State),
    exec (.init key iv o p) s = exec (.init (norm10 key) (norm10 iv) o p) s ∧
      ∃ t, exec (.init key iv o p) s = .next t ∧
        t.host.replies = s.host.replies ++ [⟨s.host.port, .ok .nothing⟩]) ∧
  norm10 [1, 2, 3] = [1, 2, 3, 0, 0, 0, 0, 0, 0, 0] ∧
  norm10 [1, 2, 3, 4, 5, 6, 7, 8, 9, 10, 11, 12] = [1, 2, 3, 4, 5, 6, 7, 8, 9, 10]

/-- The loaded key and IV bits (41_nfsr_state_machine.md R62): cell i of A and of B is bit i of the normalised key and
IV under `load_order`, for i = 0..79, and the cells above are 0; with the four corner cells as the rule names them. -/
def Obligations.KeyAndIvBitsGoToTheirCells : Prop :=
  ∀ (key iv : ByteSeq) (o : BitOrder),
    (∀ i, i < 80 → cell (loadRegs (norm10 key) (norm10 iv) o).a i = getBit (norm10 key) i o) ∧
    (∀ i, 80 ≤ i → i ≤ 92 → cell (loadRegs (norm10 key) (norm10 iv) o).a i = false) ∧
    (∀ i, i < 80 → cell (loadRegs (norm10 key) (norm10 iv) o).b i = getBit (norm10 iv) i o) ∧
    (∀ i, 80 ≤ i → i ≤ 83 → cell (loadRegs (norm10 key) (norm10 iv) o).b i = false) ∧
    (∀ k0 k9 : Byte, (norm10 key)[0]? = some k0 → (norm10 key)[9]? = some k9 →
      cell (loadRegs (norm10 key) (norm10 iv) .msbFirst).a 0 = k0.getLsbD 7 ∧
      cell (loadRegs (norm10 key) (norm10 iv) .msbFirst).a 79 = k9.getLsbD 0 ∧
      cell (loadRegs (norm10 key) (norm10 iv) .lsbFirst).a 0 = k0.getLsbD 0 ∧
      cell (loadRegs (norm10 key) (norm10 iv) .lsbFirst).a 79 = k9.getLsbD 7) ∧
    (∀ v0 v9 : Byte, (norm10 iv)[0]? = some v0 → (norm10 iv)[9]? = some v9 →
      cell (loadRegs (norm10 key) (norm10 iv) .msbFirst).b 0 = v0.getLsbD 7 ∧
      cell (loadRegs (norm10 key) (norm10 iv) .msbFirst).b 79 = v9.getLsbD 0 ∧
      cell (loadRegs (norm10 key) (norm10 iv) .lsbFirst).b 0 = v0.getLsbD 0 ∧
      cell (loadRegs (norm10 key) (norm10 iv) .lsbFirst).b 79 = v9.getLsbD 7)

/-- Register C of the loaded state (41_nfsr_state_machine.md R63): 108 zeros, then three ones, whatever key, IV and
order; so the loaded state is never all zero. -/
def Obligations.LoadedStateSeedsRegisterC : Prop :=
  ∀ (K V : ByteSeq) (o : BitOrder),
    (∀ i, i ≤ 107 → cell (loadRegs K V o).c i = false) ∧
      cell (loadRegs K V o).c 108 = true ∧ cell (loadRegs K V o).c 109 = true ∧
      cell (loadRegs K V o).c 110 = true ∧ allZero (loadRegs K V o) = false

/-- INIT (41_nfsr_state_machine.md R60, R61, R64; RDY is the spec's decision D7): completes in every state, with RDY = 0
or 1; afterwards the instance holds the loaded state after exactly 1152 advances and the two orders of its operands;
every other instance is as before; the reply is OK with no result. -/
def Obligations.InitConstructsTheWarmedUpInstance : Prop :=
  ∀ (key iv : ByteSeq) (o : BitOrder) (p : PackOrder) (s : State), ∃ t,
    exec (.init key iv o p) s = .next t ∧
      instanceAt t.instances s.host.port =
        some { regs := (fun r : Regs => r.advance.2)^[1152] (loadRegs (norm10 key) (norm10 iv) o)
               loadOrder := o, packOrder := p } ∧
      t.rdy s.host.port = true ∧
      (∀ j, j ≠ s.host.port → instanceAt t.instances j = instanceAt s.instances j) ∧
      t.host = { s.host with replies := s.host.replies ++ [⟨s.host.port, .ok .nothing⟩] }

/-- INIT is determined by the normalised operands alone (41_nfsr_state_machine.md R65 (a) and (c), an inference and
decision D10 of the spec): from any two states, running or reset, keys and IVs that normalise alike give the same
instance. -/
def Obligations.InitDependsOnItsOperandsOnly : Prop :=
  ∀ (key key' iv iv' : ByteSeq) (o : BitOrder) (p : PackOrder) (s s' : State),
    norm10 key = norm10 key' → norm10 iv = norm10 iv' →
      ∃ t t', exec (.init key iv o p) s = .next t ∧ exec (.init key' iv' o p) s' = .next t' ∧
        instanceAt t.instances s.host.port = instanceAt t'.instances s'.host.port

/-! ### ADVANCE -/

/-- ADVANCE (41_nfsr_state_machine.md R66, in the form of R67): with an instance it completes; z and the three inserted
bits are computed from the old cells, every other cell receives its lower neighbour; configuration and every other
instance are as before, and z is the result. -/
def Obligations.AdvanceShiftsAndInsertsTheFeedbackBits : Prop :=
  ∀ (s : State) (x : Instance), instanceAt s.instances s.host.port = some x → ∃ t r,
    exec .advance s = .next t ∧
      instanceAt t.instances s.host.port = some { x with regs := r } ∧
      (∀ j, j ≠ s.host.port → instanceAt t.instances j = instanceAt s.instances j) ∧
      t.host = { s.host with replies := s.host.replies ++ [⟨s.host.port, .ok (.bit
        (cell x.regs.a 65 ^^ cell x.regs.a 92 ^^ cell x.regs.b 68 ^^ cell x.regs.b 83 ^^
          cell x.regs.c 65 ^^ cell x.regs.c 110))⟩] } ∧
      cell r.a 0 = (cell x.regs.c 65 ^^ cell x.regs.c 110 ^^ (cell x.regs.c 108 && cell x.regs.c 109) ^^
        cell x.regs.a 68) ∧
      (∀ i, 1 ≤ i → i ≤ 92 → cell r.a i = cell x.regs.a (i - 1)) ∧
      cell r.b 0 = (cell x.regs.a 65 ^^ cell x.regs.a 92 ^^ (cell x.regs.a 90 && cell x.regs.a 91) ^^
        cell x.regs.b 77) ∧
      (∀ i, 1 ≤ i → i ≤ 83 → cell r.b i = cell x.regs.b (i - 1)) ∧
      cell r.c 0 = (cell x.regs.b 68 ^^ cell x.regs.b 83 ^^ (cell x.regs.b 81 && cell x.regs.b 82) ^^
        cell x.regs.c 86) ∧
      ∀ i, 1 ≤ i → i ≤ 110 → cell r.c i = cell x.regs.c (i - 1)

/-- One step is a bijection of the 2^288 register states (41_nfsr_state_machine.md R71, an inference of the spec): the
formulas of R71 give back the state before a step, and every state is the state after a step. -/
def Obligations.AdvanceIsReversible : Prop :=
  ∀ r : Regs, retreat r.advance.2 = r ∧ (retreat r).advance.2 = r

/-- The corner cases of ADVANCE (41_nfsr_state_machine.md R66, R70): all-zero registers give z = 0 and stay all zero;
all-one registers give z = 0 and a 0 into cell 0 of each register, every other cell staying 1. -/
def Obligations.AllZeroAndAllOneRegisters : Prop :=
  Regs.advance ⟨0#93, 0#84, 0#111⟩ = (false, ⟨0#93, 0#84, 0#111⟩) ∧
    Regs.advance ⟨BitVec.allOnes 93, BitVec.allOnes 84, BitVec.allOnes 111⟩ =
      (false, ⟨BitVec.allOnes 93 <<< 1, BitVec.allOnes 84 <<< 1, BitVec.allOnes 111 <<< 1⟩)

/-! ### KSBYTE and XORBYTE -/

/-- Assembly of a byte (30_encoding.md R48): the weighted sum of the eight bits, the first produced lowest, in the one
pack order there is, and the rule's example. -/
def Obligations.PackedByteIsTheWeightedSum : Prop :=
  (∀ (p : PackOrder) (z0 z1 z2 z3 z4 z5 z6 z7 : Bool),
    (packBits p [z0, z1, z2, z3, z4, z5, z6, z7]).toNat =
      z0.toNat + 2 * z1.toNat + 4 * z2.toNat + 8 * z3.toNat + 16 * z4.toNat + 32 * z5.toNat + 64 * z6.toNat +
        128 * z7.toNat) ∧
    ∀ p : PackOrder, packBits p [true, true, true, false, true, true, true, true] = 0xF7#8

/-- KSBYTE (42_keystream_packer.md R75 with the numbering of R76, an inference of the spec): with an instance it
completes; bit j of the byte is the output of the (j+1)-th of eight advances, and the registers are those after eight
advances; configuration and every other instance are as before. -/
def Obligations.KsbytePacksEightKeystreamBits : Prop :=
  ∀ (s : State) (x : Instance), instanceAt s.instances s.host.port = some x → ∃ t b,
    exec .ksbyte s = .next t ∧
      instanceAt t.instances s.host.port = some { x with regs := stateAfter x.regs 8 } ∧
      (∀ j, j ≠ s.host.port → instanceAt t.instances j = instanceAt s.instances j) ∧
      t.host = { s.host with replies := s.host.replies ++ [⟨s.host.port, .ok (.byte b)⟩] } ∧
      ∀ j, j < 8 → b.getLsbD j = keystreamBit x.regs (j + 1)

/-- XORBYTE (42_keystream_packer.md R77): as KSBYTE, with bit j of the result the XOR of bit j of the data byte and bit
j of the keystream byte; the registers after it are the same for every data byte (R87, an inference of the spec). -/
def Obligations.XorbyteXorsTheKeystreamByte : Prop :=
  ∀ (s : State) (x : Instance) (d : Byte), instanceAt s.instances s.host.port = some x → ∃ t b,
    exec (.xorbyte d) s = .next t ∧
      instanceAt t.instances s.host.port = some { x with regs := stateAfter x.regs 8 } ∧
      (∀ j, j ≠ s.host.port → instanceAt t.instances j = instanceAt s.instances j) ∧
      t.host = { s.host with replies := s.host.replies ++ [⟨s.host.port, .ok (.byte b)⟩] } ∧
      ∀ j, j < 8 → b.getLsbD j = (d.getLsbD j ^^ keystreamBit x.regs (j + 1))

/-- KSBYTE is exactly eight ADVANCEs and a packing (42_keystream_packer.md R76, an inference of the spec): issuing eight
ADVANCEs gives the eight bits of the byte one KSBYTE gives, in order, and the same instances. -/
def Obligations.EightAdvancesMakeOneKsbyte : Prop :=
  ∀ (s : State) (k : Nat) (x : Instance), instanceAt s.instances k = some x → ∃ t u b,
    runSteps 8 (withRequests s (List.replicate 8 (requestOf k .advance))) = .next t ∧
      step (withRequests s [requestOf k .ksbyte]) = .next u ∧
      responsesFrom s.host.replies.length u = [.ok (.byte b)] ∧
      responsesFrom s.host.replies.length t = (List.range 8).map (fun j => .ok (.bit (b.getLsbD j))) ∧
      ∀ j, instanceAt t.instances j = instanceAt u.instances j

/-- `XORBYTE(0) = KSBYTE()` from the same state, and `XORBYTE(0xFF)` returns the complement
(42_keystream_packer.md R77, corner cases), in every state, the refused case included for the first. -/
def Obligations.XorbyteOfZeroIsKsbyte : Prop :=
  ∀ s : State, exec (.xorbyte 0x00#8) s = exec .ksbyte s ∧
    ∀ x, instanceAt s.instances s.host.port = some x → ∃ t u b,
      exec .ksbyte s = .next t ∧ exec (.xorbyte 0xFF#8) s = .next u ∧ u.instances = t.instances ∧
        t.host.replies = s.host.replies ++ [⟨s.host.port, .ok (.byte b)⟩] ∧
        u.host.replies = s.host.replies ++ [⟨s.host.port, .ok (.byte (~~~b))⟩]

/-- The numbering of the keystream (41_nfsr_state_machine.md R72, an inference of the spec): after any list of ADVANCEs,
KSBYTEs and XORBYTEs issued to one instance, in any interleaving, its registers are those after one advance for each
ADVANCE and eight for each of the others, and each command has been answered OK. -/
def Obligations.RegistersCountTheKeystreamBits : Prop :=
  ∀ (s : State) (k : Nat) (x : Instance) (is : List Instr),
    instanceAt s.instances k = some x → (∀ i ∈ is, needsReady i = true) → ∃ t,
      runSteps is.length (withRequests s (is.map (requestOf k))) = .next t ∧
        instanceAt t.instances k = some { x with regs := stateAfter x.regs (is.map bitsConsumed).sum } ∧
        (responsesFrom s.host.replies.length t).length = is.length ∧
        ∀ r ∈ responsesFrom s.host.replies.length t, r.status = .ok

/-! ### Frames and whole-machine rules -/

/-- What every operation leaves alone when it answers a next state: every other instance, the requests pending, the
replies already given (one is added); GETBIT leaves every instance alone; ADVANCE, KSBYTE and XORBYTE leave LOAD_ORDER
and PACK_ORDER of their instance alone and no operation ends an instance (10_state.md R23). -/
def Obligations.OperationsLeaveTheRestAlone : Prop :=
  ∀ (i : Instr) (s t : State), exec i s = .next t →
    (∀ j, j ≠ s.host.port → instanceAt t.instances j = instanceAt s.instances j) ∧
    t.host.port = s.host.port ∧ t.host.pending = s.host.pending ∧
    (∃ r, t.host.replies = s.host.replies ++ [⟨s.host.port, r⟩]) ∧
    match i with
    | .getbit _ _ _ => t.instances = s.instances
    | .init _ _ _ _ => t.rdy s.host.port = true
    | .advance | .ksbyte | .xorbyte _ =>
        (s.rdy s.host.port = false → t.instances = s.instances) ∧
          ∀ x, instanceAt s.instances s.host.port = some x →
            ∃ r, instanceAt t.instances s.host.port = some { x with regs := r }

/-- RDY (10_state.md R16, decision D7): a step sets RDY of the instance served when the request issues INIT, clears it
when the request is a reset, and no other request changes RDY of any instance. -/
def Obligations.OnlyInitAndResetChangeRdy : Prop :=
  ∀ (s : State) (q : Request) (rest : List Request), s.host.pending = q :: rest →
    ∃ t, step s = .next t ∧ ∀ k, t.rdy k =
      if k = q.port then issuesInit q.event || (decide (q.event ≠ .reset) && s.rdy k) else s.rdy k

/-- LOAD_ORDER (10_state.md R14): INIT writes it from its operand; no other operation writes it; no operation after INIT
reads it (another value there changes no reply and no register); and the default MsbFirst is the host's parser's, for a
token that is not supplied. The field holds one of the two orders. -/
def Obligations.LoadOrderIsWrittenByInitOnly : Prop :=
  (∀ x : Instance, x.loadOrder = .msbFirst ∨ x.loadOrder = .lsbFirst) ∧
  (∀ (key iv : ByteSeq) (o : BitOrder) (p : PackOrder) (s : State), ∃ t y,
    exec (.init key iv o p) s = .next t ∧ instanceAt t.instances s.host.port = some y ∧ y.loadOrder = o) ∧
  (∀ (i : Instr) (s : State) (x : Instance), instanceAt s.instances s.host.port = some x →
    (∀ key iv o p, i ≠ .init key iv o p) → ∃ t y,
      exec i s = .next t ∧ instanceAt t.instances s.host.port = some y ∧ y.loadOrder = x.loadOrder) ∧
  (∀ (i : Instr) (s : State) (x : Instance) (o : BitOrder), instanceAt s.instances s.host.port = some x →
    ∃ t u y z, exec i s = .next t ∧ exec i (s.setCurrent { x with loadOrder := o }) = .next u ∧
      instanceAt t.instances s.host.port = some y ∧ instanceAt u.instances s.host.port = some z ∧
      y.regs = z.regs ∧ y.packOrder = z.packOrder ∧ t.host = u.host) ∧
  parseBitOrder none = .next .msbFirst

/-- Two instances share nothing (10_state.md R24): a step writes only the instance served and answers only it, and what
it writes and answers is the same in any two states in which that instance is the same. -/
def Obligations.StepTouchesOneInstanceOnly : Prop :=
  ∀ (s s' : State) (q : Request) (rest rest' : List Request),
    s.host.pending = q :: rest → s'.host.pending = q :: rest' →
    instanceAt s.instances q.port = instanceAt s'.instances q.port →
      ∃ t t' added, step s = .next t ∧ step s' = .next t' ∧
        (∀ j, j ≠ q.port → instanceAt t.instances j = instanceAt s.instances j ∧ repliesOf j t = repliesOf j s) ∧
        instanceAt t.instances q.port = instanceAt t'.instances q.port ∧
        t.host.replies = s.host.replies ++ added ∧ t'.host.replies = s'.host.replies ++ added

/-- Operations on different instances may run in any order (20_memory.md R36): two requests to two instances, served in
either order, leave the same instances and give each instance the same replies. -/
def Obligations.DifferentInstancesCommute : Prop :=
  ∀ (s : State) (q q' : Request), canonical s.instances = true → q.port ≠ q'.port → ∃ t u,
    runSteps 2 (withRequests s [q, q']) = .next t ∧ runSteps 2 (withRequests s [q', q]) = .next u ∧
      t.instances = u.instances ∧ ∀ k, repliesOf k t = repliesOf k u

/-- The invariant holds at reset. -/
def Obligations.InvariantAtReset : Prop := Inv State.reset

/-- Every step keeps the invariant: the list of instances stays in canonical form, and no instance reaches all-zero
registers (41_nfsr_state_machine.md R70, an inference of the spec), since INIT loads three ones and the step is a
bijection that fixes zero. -/
def Obligations.EveryStepKeepsTheInvariant : Prop :=
  ∀ s t : State, Inv s → step s = .next t → Inv t

/-! ### XORBYTES and TRIVIUM_XOR -/

/-- XORBYTES issued as one XORBYTE per byte (30_encoding.md R53) computes the function XORBYTES
(42_keystream_packer.md R78): the same bytes in the same order, the same final instance, every other instance as
before. -/
def Obligations.XorbyteCommandsComputeXorbytes : Prop :=
  ∀ (s : State) (k : Nat) (x : Instance) (data : ByteSeq), instanceAt s.instances k = some x → ∃ t,
    runSteps data.length (withRequests s (xorBytesRequests k data)) = .next t ∧
      instanceAt t.instances k = some (x.xorBytes data).2 ∧
      (∀ j, j ≠ k → instanceAt t.instances j = instanceAt s.instances j) ∧
      responsesFrom s.host.replies.length t = (x.xorBytes data).1.map (fun b => .ok (.byte b))

/-- XORBYTES and the keystream (42_keystream_packer.md R78; R87, an inference of the spec): bit j of result byte i is
bit j of data byte i XOR keystream bit 8i + j + 1; the number of advances is 8 times the length; configuration is
unchanged. -/
def Obligations.XorbytesUsesTheKeystreamInOrder : Prop :=
  ∀ (x : Instance) (data : ByteSeq),
    (x.xorBytes data).2 = { x with regs := stateAfter x.regs (8 * data.length) } ∧
      (x.xorBytes data).1.length = data.length ∧
      ∀ (i j : Nat) (d : Byte), data[i]? = some d → j < 8 → ∃ b : Byte,
        (x.xorBytes data).1[i]? = some b ∧ b.getLsbD j = (d.getLsbD j ^^ keystreamBit x.regs (8 * i + j + 1))

/-- Splitting the data of XORBYTES (42_keystream_packer.md R78), and its two readings (90_conflicts.md C11): as one
operation it is refused when RDY = 0, for empty data too, and on a running instance answers, for every data, the bytes
and the instance of the loop of R78; as commands, empty data issues none. -/
def Obligations.XorbytesSplitsAndRefusesAsAWhole : Prop :=
  (∀ (x : Instance) (d1 d2 : ByteSeq),
    (x.xorBytes (d1 ++ d2)).1 = (x.xorBytes d1).1 ++ ((x.xorBytes d1).2.xorBytes d2).1 ∧
      (x.xorBytes (d1 ++ d2)).2 = ((x.xorBytes d1).2.xorBytes d2).2) ∧
    (∀ data : ByteSeq, xorBytesWhole none data = .error .notInitialised) ∧
    (∀ (x : Instance) (data : ByteSeq), xorBytesWhole (some x) data = .ok (x.xorBytes data)) ∧
    (∀ x : Instance, xorBytesWhole (some x) [] = .ok ([], x)) ∧
    ∀ k, xorBytesRequests k [] = []

/-- TRIVIUM_XOR issued as commands (30_encoding.md R53) computes the function TRIVIUM_XOR (42_keystream_packer.md R80)
on any instance in any state: one INIT answered with no result, then the result bytes. That INIT may be issued to a
running instance and acts as after reset is the spec's decision D10 (notes/assumptions/7.md). -/
def Obligations.TriviumXorCommandsComputeTriviumXor : Prop :=
  ∀ (s : State) (k : Nat) (key iv data : ByteSeq) (token : Option Token) (qs : List Request),
    triviumXorRequests k key iv data token = .next qs → ∃ t out,
      triviumXor key iv data token = .next out ∧
        runSteps qs.length (withRequests s qs) = .next t ∧
        responsesFrom s.host.replies.length t = .ok .nothing :: out.map (fun b => .ok (.byte b)) ∧
        ∀ j, j ≠ k → instanceAt t.instances j = instanceAt s.instances j

/-- Involution (42_keystream_packer.md R81): with every token it accepts, TRIVIUM_XOR answers, and applied twice with the
same key, IV and bit order it gives back the data; and this does not hold for two XORBYTES on one instance without an
INIT between. -/
def Obligations.TriviumXorIsAnInvolution : Prop :=
  (∀ (key iv data : ByteSeq) (token : Option Token) (o : BitOrder), parseBitOrder token = .next o →
    ∃ out, triviumXor key iv data token = .next out ∧ triviumXor key iv out token = .next data) ∧
    ∃ (key iv data : ByteSeq) (o : BitOrder),
      (((newInstance key iv o .lsbFirst).xorBytes data).2.xorBytes
        ((newInstance key iv o .lsbFirst).xorBytes data).1).1 ≠ data

/-- Length preservation (42_keystream_packer.md R82): with every token it accepts, TRIVIUM_XOR answers as many result
bytes as data bytes; empty data, empty output. -/
def Obligations.TriviumXorKeepsTheLength : Prop :=
  ∀ (key iv data : ByteSeq) (token : Option Token) (o : BitOrder), parseBitOrder token = .next o →
    ∃ out, triviumXor key iv data token = .next out ∧ out.length = data.length ∧ (data = [] → out = [])

/-- Padding equivalence (42_keystream_packer.md R83): the instance is that of the normalised key and IV; a key of length
3 and an IV of length 2 act as their zero-padded forms; a key or IV longer than 10 bytes acts as its first 10. -/
def Obligations.PaddedAndTruncatedKeysAreTheSameKey : Prop :=
  ∀ (key iv data : ByteSeq) (token : Option Token),
    (∀ o p, newInstance key iv o p = newInstance (norm10 key) (norm10 iv) o p) ∧
    triviumXor key iv data token = triviumXor (norm10 key) (norm10 iv) data token ∧
    (key.length = 3 → iv.length = 2 → triviumXor key iv data token =
      triviumXor (key ++ List.replicate 7 0#8) (iv ++ List.replicate 8 0#8) data token) ∧
    (10 < key.length → triviumXor key iv data token = triviumXor (key.take 10) iv data token) ∧
    (10 < iv.length → triviumXor key iv data token = triviumXor key (iv.take 10) data token)

/-- Bit order (42_keystream_packer.md R84, its exact form, an inference of the spec): the two orders give the same loaded
state, and the same registers after the warm-up, exactly when every byte of the normalised key and IV is its own bit
reversal. -/
def Obligations.OrdersAgreeExactlyOnPalindromicBytes : Prop :=
  ∀ (key iv : ByteSeq) (p : PackOrder),
    (loadRegs (norm10 key) (norm10 iv) .msbFirst = loadRegs (norm10 key) (norm10 iv) .lsbFirst ↔
      ∀ b ∈ norm10 key ++ norm10 iv, rev8 b = b) ∧
    ((newInstance key iv .msbFirst p).regs = (newInstance key iv .lsbFirst p).regs ↔
      ∀ b ∈ norm10 key ++ norm10 iv, rev8 b = b)

/-- Determinism (42_keystream_packer.md R85): INIT with the same operands, on any two instances in any two states,
followed by any number of KSBYTEs, gives the same keystream bytes, one reply OK for each command. That the two states
include one whose instance is running already, which INIT then replaces, rests on the spec's decision D10
(notes/assumptions/7.md). -/
def Obligations.SameOperandsGiveTheSameKeystream : Prop :=
  ∀ (s s' : State) (k k' n : Nat) (key iv : ByteSeq) (o : BitOrder) (p : PackOrder), ∃ t t',
    runSteps (n + 1) (withRequests s (requestOf k (.init key iv o p) :: List.replicate n (requestOf k .ksbyte))) =
        .next t ∧
      runSteps (n + 1)
          (withRequests s' (requestOf k' (.init key iv o p) :: List.replicate n (requestOf k' .ksbyte))) = .next t' ∧
      responsesFrom s.host.replies.length t = responsesFrom s'.host.replies.length t' ∧
      (responsesFrom s.host.replies.length t).length = n + 1 ∧
      ∀ r ∈ responsesFrom s.host.replies.length t, r.status = .ok

/-- Invalid token (42_keystream_packer.md R86): with `bit_order = "foo"` the call fails with the invalid-bit-order error,
produces no output bytes, and no command is issued, so no instance is constructed and no advance runs. -/
def Obligations.InvalidTokenIssuesNoCommand : Prop :=
  ∀ (k : Nat) (key iv data : ByteSeq),
    triviumXor key iv data (some ['f', 'o', 'o']) = .fault (.invalidBitOrderToken ['f', 'o', 'o']) ∧
      triviumXorRequests k key iv data (some ['f', 'o', 'o']) = .fault (.invalidBitOrderToken ['f', 'o', 'o'])

/-- The token table (30_encoding.md R49), over the characters whose reading the spec settles (notes/assumptions/8.md,
9.md): unset is MsbFirst; an accepted spelling in any case, with spaces around it, gives its order; only spaces, or
nothing, is refused a meaning; any other string of printable ASCII and spaces is the error, with the string. -/
def Obligations.TokenTableIsRead : Prop :=
  parseBitOrder none = .next .msbFirst ∧
  (∀ (m n : Nat) (w : Token), w.map Char.toLower ∈ msbSpellings →
    parseBitOrder (some (List.replicate m ' ' ++ w ++ List.replicate n ' ')) = .next .msbFirst) ∧
  (∀ (m n : Nat) (w : Token), w.map Char.toLower ∈ lsbSpellings →
    parseBitOrder (some (List.replicate m ' ' ++ w ++ List.replicate n ' ')) = .next .lsbFirst) ∧
  (∀ m : Nat, parseBitOrder (some (List.replicate m ' ')) = .refused .emptyToken) ∧
  ∀ t : Token, (∀ ch ∈ t, 32 ≤ ch.toNat ∧ ch.toNat ≤ 126) → (∃ ch ∈ t, ch ≠ ' ') →
    (∀ (m n : Nat) (w : Token), t = List.replicate m ' ' ++ w ++ List.replicate n ' ' →
      w.map Char.toLower ∉ msbSpellings ++ lsbSpellings) →
    parseBitOrder (some t) = .fault (.invalidBitOrderToken t)

/-- The one error of the source (60_exceptions.md R90, R96): TRIVIUM_XOR fails exactly when its token is read as the
error, whatever key, IV and data are, recording the token; and the messages allowed are exactly those in which the
value, `msb` and `lsb` each occur somewhere, in any order (93_implementation_defined.md U6; notes/assumptions/10.md). -/
def Obligations.TheOnlyErrorIsTheInvalidToken : Prop :=
  (∀ (key iv data : ByteSeq) (token : Option Token) (f : Fault),
    triviumXor key iv data token = .fault f ↔ parseBitOrder token = .fault f) ∧
  (∀ (token : Option Token) (f : Fault), parseBitOrder token = .fault f →
    ∃ v, token = some v ∧ f = .invalidBitOrderToken v ∧ f.status.code = 1) ∧
  ∀ v m : Token, (Fault.invalidBitOrderToken v).messageAllowed m = true ↔
    (∃ p q, m = p ++ v ++ q) ∧ (∃ p q, m = p ++ ['m', 's', 'b'] ++ q) ∧ ∃ p q, m = p ++ ['l', 's', 'b'] ++ q

/-! ### The number of instances -/

/-- NINST (00_scope.md R7, 60_exceptions.md R100, decision D18; that the instances are numbered from 0 to NINST - 1 is
the model's choice, notes/assumptions/3.md): whatever the parameters are, a step served within the NINST instances stays
within them, and a canonical list of instances within them holds at most NINST. -/
def Obligations.EveryStepStaysWithinTheInstances : Prop :=
  (∀ (p : Config.OpenParams) (s t : State),
    withinInstances p s → step s = .next t → withinInstances p t) ∧
    ∀ (p : Config.OpenParams) (n : Nat) (s : State), p.ninst = some n → canonical s.instances = true →
      withinInstances p s → s.instances.length ≤ n

/-- The reset state is within the instances of every NINST, and NINST not given admits every number
(00_scope.md R7: any number of instances; notes/assumptions/3.md). -/
def Obligations.ResetIsWithinTheInstances : Prop :=
  (∀ p : Config.OpenParams, withinInstances p State.reset) ∧ ∀ k, Config.openParams.admitsPort k = true
end

