-- ==== Sys2Proof/Laws/State.lean ====
section
/-! SUPPORT. Laws/State.lean: one lemma per field of State for each of its updates, all by rfl. -/

namespace Sys2Proof.Machine

section Updates
variable (s : State) (x : Instance) (r : Response) (qs : List Request)

@[simp] theorem State.setCurrent_instances :
    (s.setCurrent x).instances = putInstance s.instances s.host.port x := rfl
@[simp] theorem State.setCurrent_host : (s.setCurrent x).host = s.host := rfl

@[simp] theorem State.reply_instances : (s.reply r).instances = s.instances := rfl
@[simp] theorem State.reply_port : (s.reply r).host.port = s.host.port := rfl
@[simp] theorem State.reply_pending : (s.reply r).host.pending = s.host.pending := rfl
@[simp] theorem State.reply_replies :
    (s.reply r).host.replies = s.host.replies ++ [⟨s.host.port, r⟩] := rfl

@[simp] theorem State.resetCurrent_instances :
    s.resetCurrent.instances = dropInstance s.instances s.host.port := rfl
@[simp] theorem State.resetCurrent_host : s.resetCurrent.host = s.host := rfl

@[simp] theorem withRequests_instances : (Safety.withRequests s qs).instances = s.instances := rfl
@[simp] theorem withRequests_port : (Safety.withRequests s qs).host.port = s.host.port := rfl
@[simp] theorem withRequests_pending : (Safety.withRequests s qs).host.pending = qs := rfl
@[simp] theorem withRequests_replies : (Safety.withRequests s qs).host.replies = s.host.replies := rfl

@[simp] theorem State.withFetchWord_instances (n w : Nat) :
    (s.withFetchWord n w).instances = s.instances := rfl
@[simp] theorem State.withFetchWord_replies (n w : Nat) :
    (s.withFetchWord n w).host.replies = s.host.replies := rfl

/-- A reply and a write of the instance do not touch what the other reads. -/
theorem State.reply_current : (s.reply r).current = s.current := rfl

end Updates

/-- Taking up a request: none pending, or the oldest one goes and its port becomes the port in progress. -/
theorem State.takeRequest_nil {s : State} (h : s.host.pending = []) : s.takeRequest = none := by
  simp [State.takeRequest, h]

theorem State.takeRequest_cons {s : State} {q : Request} {rest : List Request}
    (h : s.host.pending = q :: rest) :
    s.takeRequest = some (q.event, { s with host := { s.host with port := q.port, pending := rest } }) := by
  simp [State.takeRequest, h]

end Sys2Proof.Machine
end

