-- ==== Sys2Proof/Laws/Cells.lean ====
section
/-! SUPPORT. Laws/Cells.lean: reading the cells of a register made by `ofCells` and of the registers after an advance. -/

namespace Sys2Proof.Machine

@[simp] theorem cell_ofCells (n : Nat) (f : Nat → Bool) (i : Nat) :
    cell (ofCells n f) i = (decide (i < n) && f i) := by
  induction n with
  | zero => simp [ofCells, cell]
  | succ n ih =>
    simp only [cell] at ih
    simp only [ofCells, cell, BitVec.getLsbD_cons, ih]
    by_cases h : i = n
    · subst h; simp
    · by_cases h' : i < n
      · simp [h, h', Nat.lt_succ_of_lt h']
      · have : ¬ i < n + 1 := by omega
        simp [h, h', this]

/-- Two registers with the same cells are the same. -/
theorem eq_of_cell_eq {n : Nat} {x y : BitVec n} (h : ∀ i, i < n → cell x i = cell y i) : x = y :=
  BitVec.eq_of_getLsbD_eq fun i hi => h i hi

/-- The shift of one advance: cell 0 receives the new bit, cell i the old cell i - 1, the last cell is dropped. -/
theorem cell_shiftConcat {n : Nat} (x : BitVec n) (t : Bool) (i : Nat) :
    cell (x.shiftConcat t) i = (decide (i < n) && if i = 0 then t else cell x (i - 1)) := by
  simp only [cell, BitVec.getLsbD_shiftConcat]

theorem cell_of_ge {n : Nat} (x : BitVec n) {i : Nat} (h : n ≤ i) : cell x i = false :=
  BitVec.getLsbD_of_ge x i h

/-- The bits `t3'`, `t1'` and `t2'` of one advance that enter A, B and C (41_nfsr_state_machine.md R66). -/
theorem advance_inserts (r : Regs) :
    r.advance.2.a = r.a.shiftConcat
        (cell r.c 65 ^^ cell r.c 110 ^^ (cell r.c 108 && cell r.c 109) ^^ cell r.a 68) ∧
      r.advance.2.b = r.b.shiftConcat
        (cell r.a 65 ^^ cell r.a 92 ^^ (cell r.a 90 && cell r.a 91) ^^ cell r.b 77) ∧
      r.advance.2.c = r.c.shiftConcat
        (cell r.b 68 ^^ cell r.b 83 ^^ (cell r.b 81 && cell r.b 82) ^^ cell r.c 86) :=
  ⟨rfl, rfl, rfl⟩

theorem Regs.discard_add (m n : Nat) (r : Regs) :
    Regs.discard (m + n) r = Regs.discard n (Regs.discard m r) := by
  induction m generalizing r with
  | zero => simp [Regs.discard]
  | succ m ih => rw [Nat.succ_add, Regs.discard, ih, Regs.discard]

/-- Discarding or keeping the output bits makes no difference to the registers. -/
theorem Regs.produce_regs (n : Nat) (r : Regs) : (Regs.produce n r).2 = Regs.discard n r := by
  induction n generalizing r with
  | zero => rfl
  | succ n ih => simp [Regs.produce, Regs.discard, ih]

@[simp] theorem Regs.produce_length (n : Nat) (r : Regs) : (Regs.produce n r).1.length = n := by
  induction n generalizing r with
  | zero => rfl
  | succ n ih => simp [Regs.produce, ih]

/-- The fields of a new instance. Cite these, and do not unfold or compare by rfl: the 1152 advances would be run. -/
theorem newInstance_regs (keyRaw ivRaw : ByteSeq) (o : BitOrder) (p : PackOrder) :
    (newInstance keyRaw ivRaw o p).regs =
      Regs.discard Params.warmupSteps (loadRegs (norm10 keyRaw) (norm10 ivRaw) o) := by
  simp only [newInstance]

@[simp] theorem newInstance_loadOrder (keyRaw ivRaw : ByteSeq) (o : BitOrder) (p : PackOrder) :
    (newInstance keyRaw ivRaw o p).loadOrder = o := by
  simp only [newInstance]

@[simp] theorem newInstance_packOrder (keyRaw ivRaw : ByteSeq) (o : BitOrder) (p : PackOrder) :
    (newInstance keyRaw ivRaw o p).packOrder = p := by
  simp only [newInstance]

@[simp] theorem norm10_length (x : ByteSeq) : (norm10 x).length = 10 := by
  simp only [norm10, Params.keyBytes]
  split
  · simp; omega
  · simp; omega

end Sys2Proof.Machine
end

