-- ==== Sys2Proof/Laws/Instances.lean ====
section
/-! SUPPORT. Laws/Instances.lean: the list of instances: read after write, other instances left alone, and that every
operation keeps the canonical form. -/

namespace Sys2Proof.Machine

@[simp] theorem instanceAt_putInstance_same (m : List (Nat × Instance)) (k : Nat) (y : Instance) :
    instanceAt (putInstance m k y) k = some y := by
  induction m with
  | nil => simp [putInstance, instanceAt]
  | cons e m ih =>
    obtain ⟨j, x⟩ := e
    simp only [putInstance]
    split
    · simp [instanceAt]
    · split
      · simp [instanceAt]
      · next h => simp [instanceAt, Ne.symm h, ih]

theorem instanceAt_putInstance_other (m : List (Nat × Instance)) {j k : Nat} (y : Instance) (h : j ≠ k) :
    instanceAt (putInstance m k y) j = instanceAt m j := by
  induction m with
  | nil => simp [putInstance, instanceAt, h.symm]
  | cons e m ih =>
    obtain ⟨i, x⟩ := e
    simp only [putInstance]
    split
    · simp [instanceAt, h.symm]
    · split
      · next h' => subst h'; simp [instanceAt, h.symm]
      · by_cases hi : i = j <;> simp [instanceAt, hi, ih]

/-- What a write of instance `k` does to every read. -/
theorem instanceAt_putInstance (m : List (Nat × Instance)) (j k : Nat) (y : Instance) :
    instanceAt (putInstance m k y) j = if j = k then some y else instanceAt m j := by
  split
  · next h => subst h; simp
  · next h => exact instanceAt_putInstance_other m y h

/-- What dropping instance `k` does to every read. -/
theorem instanceAt_dropInstance (m : List (Nat × Instance)) (j k : Nat) :
    instanceAt (dropInstance m k) j = if j = k then none else instanceAt m j := by
  induction m with
  | nil => simp [dropInstance, instanceAt]
  | cons e m ih =>
    obtain ⟨i, x⟩ := e
    simp only [dropInstance] at ih
    by_cases hi : i = k
    · subst hi
      by_cases hj : j = i
      · simpa [dropInstance, hj] using ih
      · simpa [dropInstance, instanceAt, hj, Ne.symm hj] using ih
    · by_cases hj : j = k
      · subst hj
        simpa [dropInstance, instanceAt, hi] using ih
      · by_cases hij : i = j
        · simp [dropInstance, instanceAt, hij, hj]
        · simpa [dropInstance, instanceAt, hi, hij, hj] using ih

@[simp] theorem instanceAt_dropInstance_same (m : List (Nat × Instance)) (k : Nat) :
    instanceAt (dropInstance m k) k = none := by
  simp [instanceAt_dropInstance]

/-- The canonical form as a pairwise condition. -/
theorem canonical_iff_pairwise (m : List (Nat × Instance)) :
    canonical m = true ↔ m.Pairwise fun e f => e.1 < f.1 := by
  induction m with
  | nil => simp [canonical]
  | cons e m ih =>
    cases m with
    | nil => simp [canonical]
    | cons f m =>
      rw [canonical, Bool.and_eq_true, decide_eq_true_eq, ih, List.pairwise_cons (a := e)]
      constructor
      · rintro ⟨h, hp⟩
        refine ⟨fun g hg => ?_, hp⟩
        rcases List.mem_cons.mp hg with rfl | hg
        · exact h
        · exact h.trans ((List.pairwise_cons.mp hp).1 g hg)
      · rintro ⟨h, hp⟩
        exact ⟨h f (by simp), hp⟩

theorem mem_putInstance {m : List (Nat × Instance)} {k : Nat} {y : Instance} {e : Nat × Instance}
    (h : e ∈ putInstance m k y) : e = (k, y) ∨ e ∈ m := by
  induction m with
  | nil => simpa [putInstance] using h
  | cons f m ih =>
    obtain ⟨j, x⟩ := f
    simp only [putInstance] at h
    split at h
    · simpa using h
    · split at h
      · rcases List.mem_cons.mp h with h | h
        · exact .inl h
        · exact .inr (List.mem_cons_of_mem _ h)
      · rcases List.mem_cons.mp h with h | h
        · exact .inr (by simp [h])
        · exact (ih h).imp_right (List.mem_cons_of_mem _)

/-- A write keeps the canonical form. -/
theorem canonical_putInstance {m : List (Nat × Instance)} (h : canonical m = true) (k : Nat) (y : Instance) :
    canonical (putInstance m k y) = true := by
  rw [canonical_iff_pairwise] at h ⊢
  induction m with
  | nil => simp [putInstance]
  | cons e m ih =>
    obtain ⟨j, x⟩ := e
    obtain ⟨hj, hm⟩ := List.pairwise_cons.mp h
    simp only [putInstance]
    split
    · next hk =>
      refine List.pairwise_cons.mpr ⟨fun e he => ?_, h⟩
      rcases List.mem_cons.mp he with rfl | he
      · exact hk
      · exact lt_trans hk (hj e he)
    · split
      · next hk => subst hk; exact List.pairwise_cons.mpr ⟨hj, hm⟩
      · next h1 h2 =>
        refine List.pairwise_cons.mpr ⟨fun e he => ?_, ih hm⟩
        rcases mem_putInstance he with rfl | he
        · change j < k; omega
        · exact hj e he

/-- Dropping an instance keeps the canonical form. -/
theorem canonical_dropInstance {m : List (Nat × Instance)} (h : canonical m = true) (k : Nat) :
    canonical (dropInstance m k) = true := by
  rw [canonical_iff_pairwise] at h ⊢
  exact h.filter _

theorem instanceAt_eq_none_of_lt {m : List (Nat × Instance)} {k : Nat}
    (h : ∀ e ∈ m, k < e.1) : instanceAt m k = none := by
  induction m with
  | nil => rfl
  | cons e m ih =>
    obtain ⟨j, x⟩ := e
    have hj : k < j := h (j, x) (by simp)
    simp [instanceAt, hj.ne', ih fun e he => h e (List.mem_cons_of_mem _ he)]

/-- Two canonical lists that read the same at every number are the same list. -/
theorem canonical_ext {m n : List (Nat × Instance)} (hm : canonical m = true) (hn : canonical n = true)
    (h : ∀ k, instanceAt m k = instanceAt n k) : m = n := by
  rw [canonical_iff_pairwise] at hm hn
  induction m generalizing n with
  | nil =>
    cases n with
    | nil => rfl
    | cons f n => have := h f.1; simp [instanceAt] at this
  | cons e m ih =>
    obtain ⟨j, x⟩ := e
    cases n with
    | nil => have := h j; simp [instanceAt] at this
    | cons f n =>
      obtain ⟨k, y⟩ := f
      obtain ⟨hj, hm'⟩ := List.pairwise_cons.mp hm
      obtain ⟨hk, hn'⟩ := List.pairwise_cons.mp hn
      have hjk : j = k := by
        rcases lt_trichotomy j k with hlt | heq | hgt
        · have := h j
          rw [instanceAt_eq_none_of_lt (m := (k, y) :: n)] at this
          · simp [instanceAt] at this
          · intro e he
            rcases List.mem_cons.mp he with rfl | he
            · exact hlt
            · exact hlt.trans (hk e he)
        · exact heq
        · have := h k
          rw [instanceAt_eq_none_of_lt (m := (j, x) :: m)] at this
          · simp [instanceAt] at this
          · intro e he
            rcases List.mem_cons.mp he with rfl | he
            · exact hgt
            · exact hgt.trans (hj e he)
      subst hjk
      have hxy : x = y := by simpa [instanceAt] using h j
      subst hxy
      congr 1
      refine ih hm' hn' fun i => ?_
      by_cases hi : j = i
      · subst hi
        rw [instanceAt_eq_none_of_lt hj, instanceAt_eq_none_of_lt hk]
      · simpa [instanceAt, hi] using h i

/-- What is read at `k` is listed at `k`. -/
theorem mem_of_instanceAt {m : List (Nat × Instance)} {k : Nat} {x : Instance} (h : instanceAt m k = some x) :
    (k, x) ∈ m := by
  induction m with
  | nil => simp [instanceAt] at h
  | cons e m ih =>
    obtain ⟨j, y⟩ := e
    by_cases hj : j = k
    · simp_all [instanceAt]
    · exact List.mem_cons_of_mem _ (ih (by simpa [instanceAt, hj] using h))

/-- What a canonical list lists at `k` is what is read at `k`. -/
theorem instanceAt_of_mem {m : List (Nat × Instance)} (hm : canonical m = true) {k : Nat} {x : Instance}
    (h : (k, x) ∈ m) : instanceAt m k = some x := by
  rw [canonical_iff_pairwise] at hm
  induction m with
  | nil => simp at h
  | cons e m ih =>
    obtain ⟨hj, hm⟩ := List.pairwise_cons.mp hm
    rcases List.mem_cons.mp h with rfl | h
    · simp [instanceAt]
    · simp [instanceAt, (hj _ h).ne, ih hm h]

theorem canonical_reset : canonical State.reset.instances = true := rfl

end Sys2Proof.Machine

namespace Sys2Proof.Config.OpenParams

@[simp] theorem admitsPort_unbounded (w l : Option Nat) (k : Nat) : admitsPort ⟨w, l, none⟩ k = true := rfl

@[simp] theorem admitsPort_bounded (w l : Option Nat) (n k : Nat) :
    admitsPort ⟨w, l, some n⟩ k = decide (k < n) := rfl

end Sys2Proof.Config.OpenParams
end

