-- ==== Sys2Proof/Laws/Ops.lean ====
section
/-! SUPPORT. Laws/Ops.lean: what each shared operation, each meaning and one step can do, said once. -/

namespace Sys2Proof.Machine

/-- All that a refused command does: one reply. -/
theorem refuseCommand_next {s t : State} {why : CommandRefusal} (h : refuseCommand s why = .next t) :
    t = s.reply (.refused why) := by
  cases h; rfl

/-- All that an operation needing RDY = 1 can do: refused with no instance, or the instance is replaced and the result
returned. -/
theorem onInstance_cases (s : State) (f : Instance → Result × Instance) :
    (s.current = none ∧ onInstance s f = .next (s.reply (.refused .notInitialised))) ∨
      ∃ x, s.current = some x ∧ onInstance s f = .next ((s.setCurrent (f x).2).reply (.ok (f x).1)) := by
  unfold onInstance
  cases h : s.current with
  | none => exact .inl ⟨rfl, rfl⟩
  | some x => exact .inr ⟨x, rfl, rfl⟩

theorem onInstance_some {s : State} {x : Instance} (f : Instance → Result × Instance) (h : s.current = some x) :
    onInstance s f = .next ((s.setCurrent (f x).2).reply (.ok (f x).1)) := by
  simp [onInstance, h]

theorem onInstance_none {s : State} (f : Instance → Result × Instance) (h : s.current = none) :
    onInstance s f = .next (s.reply (.refused .notInitialised)) := by
  simp [onInstance, h, refuseCommand]

/-- All that one operation can do to the state: reply only, or write the current instance and reply. -/
theorem exec_cases (i : Instr) (s : State) :
    ∃ r, exec i s = .next (s.reply r) ∨ ∃ y, exec i s = .next ((s.setCurrent y).reply r) := by
  cases i with
  | getbit b n o => exact ⟨_, .inl rfl⟩
  | init k v o p => exact ⟨_, .inr ⟨_, rfl⟩⟩
  | advance =>
    rcases onInstance_cases s fun x => (.bit x.advance.1, x.advance.2) with ⟨-, h⟩ | ⟨x, -, h⟩
    · exact ⟨_, .inl h⟩
    · exact ⟨_, .inr ⟨_, h⟩⟩
  | ksbyte =>
    rcases onInstance_cases s fun x => (.byte x.ksByte.1, x.ksByte.2) with ⟨-, h⟩ | ⟨x, -, h⟩
    · exact ⟨_, .inl h⟩
    · exact ⟨_, .inr ⟨_, h⟩⟩
  | xorbyte d =>
    rcases onInstance_cases s fun x => (.byte (x.xorByte d).1, (x.xorByte d).2) with ⟨-, h⟩ | ⟨x, -, h⟩
    · exact ⟨_, .inl h⟩
    · exact ⟨_, .inr ⟨_, h⟩⟩

/-- The state in which a step serves the request it takes up. -/
abbrev served (s : State) (q : Request) (rest : List Request) : State :=
  { s with host := { s.host with port := q.port, pending := rest } }

/-- A step with a request pending serves it. -/
theorem step_cons {s : State} {q : Request} {rest : List Request} (h : s.host.pending = q :: rest) :
    step s = serveEvent exec q.event (served s q rest) := by
  simp [step, State.takeRequest_cons h]

theorem step_nil {s : State} (h : s.host.pending = []) : step s = .next s := by
  simp [step, State.takeRequest_nil h]

/-- All that serving an event can do: drop the instance, or reply, or write the instance and reply. -/
theorem serveEvent_cases (e : HostEvent) (s : State) :
    (e = .reset ∧ serveEvent exec e s = .next s.resetCurrent) ∨
      ∃ r, serveEvent exec e s = .next (s.reply r) ∨
        ∃ y, serveEvent exec e s = .next ((s.setCurrent y).reply r) := by
  cases e with
  | reset => exact .inl ⟨rfl, rfl⟩
  | command c =>
    refine .inr ?_
    simp only [serveEvent, serveCommand]
    cases decode c with
    | error e => exact ⟨_, .inl rfl⟩
    | ok i => exact exec_cases i s

/-- A command that runs an operation in a step of its own. -/
theorem step_requestOf {s : State} {k : Nat} {i : Instr} {rest : List Request}
    (h : s.host.pending = requestOf k i :: rest) (hd : decode (encode i) = .ok i) :
    step s = exec i (served s (requestOf k i) rest) := by
  simp [step_cons h, requestOf, serveEvent, serveCommand, hd]

end Sys2Proof.Machine
end

