-- ==== Sys2Proof/Laws/PerInstr.lean ====
section
/-! SUPPORT. Laws/PerInstr.lean: per operation, its encoded command word lies in its row of spec/opcode_table.json,
`(w & mask) = match` (30_encoding.md R42). -/

namespace Sys2Proof.Laws.EncodedWord

/-- `match` of the operation's row. -/
def rowMatch : Instr → Byte
  | .getbit _ _ _ => 0x00#8
  | .init _ _ _ _ => 0x01#8
  | .advance => 0x02#8
  | .ksbyte => 0x03#8
  | .xorbyte _ => 0x04#8

/-- `mask` of the operation's row. -/
def rowMask : Instr → Byte
  | .getbit _ _ _ => 0xF7#8
  | .init _ _ _ _ => 0xF7#8
  | .advance => 0xFF#8
  | .ksbyte => 0xFF#8
  | .xorbyte _ => 0xFF#8

def Statement (i : Instr) : Prop := (encode i).cw &&& rowMask i = rowMatch i

theorem getbit (bytes : ByteSeq) (bitIndex : Nat) (order : BitOrder) : Statement (.getbit bytes bitIndex order) := by
  cases order
  · exact (by decide : commandWord 0#1 0#1 0#3 &&& 0xF7#8 = 0x00#8)
  · exact (by decide : commandWord 0#1 1#1 0#3 &&& 0xF7#8 = 0x00#8)

theorem init (keyRaw ivRaw : ByteSeq) (loadOrder : BitOrder) (packOrder : PackOrder) :
    Statement (.init keyRaw ivRaw loadOrder packOrder) := by
  cases packOrder
  cases loadOrder
  · exact (by decide : commandWord 0#1 0#1 1#3 &&& 0xF7#8 = 0x01#8)
  · exact (by decide : commandWord 0#1 1#1 1#3 &&& 0xF7#8 = 0x01#8)

theorem advance : Statement .advance := (by decide : commandWord 0#1 0#1 2#3 &&& 0xFF#8 = 0x02#8)

theorem ksbyte : Statement .ksbyte := (by decide : commandWord 0#1 0#1 3#3 &&& 0xFF#8 = 0x03#8)

theorem xorbyte (d : Byte) : Statement (.xorbyte d) := (by decide : commandWord 0#1 0#1 4#3 &&& 0xFF#8 = 0x04#8)

end Sys2Proof.Laws.EncodedWord
end

