-- ==== Sys2Proof/Laws/Run.lean ====
section
/-! SUPPORT. Laws/Run.lean: runs of several steps, taken apart and put together, and the replies a run adds. -/

namespace Sys2Proof.Machine

open Sys2Proof.Safety

@[simp] theorem runSteps_zero (s : State) : runSteps 0 s = .next s := rfl

/-- A run of n + 1 steps is a step and a run of n. -/
theorem runSteps_succ {n : Nat} {s t : State} (h : step s = .next t) : runSteps (n + 1) s = runSteps n t := by
  have hc : Sys2Proof.core.step s = .next t := h
  simp only [runSteps, Host.Core.run]
  rw [hc]

/-- A run of m + n steps is a run of m and a run of n. -/
theorem runSteps_add {m n : Nat} {s t : State} (h : runSteps m s = .next t) :
    runSteps (m + n) s = runSteps n t := by
  induction m generalizing s with
  | zero => cases h; simp
  | succ m ih =>
    cases hs : step s with
    | next u =>
      rw [runSteps_succ hs] at h
      rw [Nat.succ_add, runSteps_succ hs, ih h]
    | fault f =>
      have hc : Sys2Proof.core.step s = .fault f := hs
      simp only [runSteps, Host.Core.run] at h
      rw [hc] at h
      cases h
    | refused f =>
      have hc : Sys2Proof.core.step s = .refused f := hs
      simp only [runSteps, Host.Core.run] at h
      rw [hc] at h
      cases h

/-- With nothing else pending, the requests pending are the requests issued. -/
theorem withRequests_of_pending {s : State} {qs : List Request} (h : s.host.pending = qs) :
    withRequests s qs = s := by
  obtain ⟨m, p, q, r⟩ := s
  subst h
  rfl

/-- The responses after the first ones, where the replies are those and some more. -/
theorem responsesFrom_append {s t : State} {added : List Reply}
    (h : t.host.replies = s.host.replies ++ added) :
    responsesFrom s.host.replies.length t = added.map (·.response) := by
  simp [responsesFrom, h]

/-- The replies of instance `k`, where some more replies came. -/
theorem repliesOf_append {s t : State} {added : List Reply} (k : Nat)
    (h : t.host.replies = s.host.replies ++ added) :
    repliesOf k t = repliesOf k s ++ (added.filter fun p => p.port == k).map (·.response) := by
  simp [repliesOf, h]

end Sys2Proof.Machine
end

