-- ==== Sys2Proof/Tests/Slice0.lean ====
section
/-! SUPPORT. Tests/Slice0.lean: this model's own tests. Expected values come from spec/: the tables and examples of
95_test_vectors.md (named V<n>, S<n>) and of the rules. A register's bit string of the spec lists cell 0 first, so its
literal here is that string reversed. Then, for every obligation with hypotheses, a witness that meets them. -/

namespace Sys2Proof.Tests

open Sys2Proof.Machine Sys2Proof.Safety

/-! ### States to test on -/

/-- The registers right after INIT of the source's vector (V9, first state). -/
def regsS1 : Regs :=
  { a := 0b011100101001001101001101000001111000000011100111000000000010001100010110101011000111011010000#93
    b := 0b001011001000100010111001010110100101100001000011000011101000011011001111010000101110#84
    c := 0b000010000010101011000100100101001011101111101110110010011110011100000110010011000110011011101100101000110001111#111 }

def instS1 : Instance := { regs := regsS1, loadOrder := .msbFirst, packOrder := .lsbFirst }

/-- Instance 2 runs, is in progress, and the given requests are pending. -/
def running (qs : List Request) : State :=
  { instances := [(2, instS1)], host := { port := 2, pending := qs, replies := [] } }

/-- The reset state with the given requests pending. -/
def afterReset (qs : List Request) : State := withRequests State.reset qs

/-- The state where instance 0 has the given registers. -/
def withRegs (r : Regs) : State :=
  { instances := [(0, ⟨r, .msbFirst, .lsbFirst⟩)], host := State.reset.host }

def repliesAfter (a : Host.Outcome State Fault Refusal) : Option (List Reply) := (nextState a).map (·.host.replies)
def regsAfter (a : Host.Outcome State Fault Refusal) (k : Nat) : Option Regs :=
  (nextState a).bind fun t => (instanceAt t.instances k).map (·.regs)

/-- A word of the table and no operands beside it. -/
def word (w : Byte) : Command := Command.ofWord w

/-! ### Decoding (V4; each word written from 30_encoding.md R41, R42) -/

theorem test_decode_getbit_msb : decode (word 0b00000000#8) = .ok (.getbit [] 0 .msbFirst) := by rfl
theorem test_decode_getbit_lsb :
    decode { word 0b00001000#8 with bytes := [0x80], bitIndex := 9 } = .ok (.getbit [0x80] 9 .lsbFirst) := by rfl
theorem test_decode_init_msb :
    decode { word 0b00000001#8 with keyRaw := [1], ivRaw := [2, 3] } = .ok (.init [1] [2, 3] .msbFirst .lsbFirst) := by
  rfl
theorem test_decode_init_lsb : decode (word 0b00001001#8) = .ok (.init [] [] .lsbFirst .lsbFirst) := by rfl
theorem test_decode_advance : decode (word 0b00000010#8) = .ok .advance := by rfl
theorem test_decode_ksbyte : decode (word 0b00000011#8) = .ok .ksbyte := by rfl
theorem test_decode_xorbyte : decode { word 0b00000100#8 with d := 0x68 } = .ok (.xorbyte 0x68) := by rfl
/-- V4's illegal words, by the reason of 30_encoding.md R50. -/
theorem test_decode_illegal :
    [0x05#8, 0x06#8, 0x07#8, 0x0A#8, 0x0B#8, 0x0C#8, 0x10#8, 0x11#8, 0x19#8, 0x20#8, 0x41#8, 0x82#8, 0xFF#8].all
      (fun w => match decode (word w) with | .ok _ => false | .error e => e.word == w) = true := by decide +kernel
theorem test_table_word_xorbyte : decodeTableWord 8 4 = some (.xorbyte 0) := by rfl
theorem test_table_word_illegal : decodeTableWord 8 7 = none := by rfl

/-! ### Well-formedness: an ill-formed term for each check -/

theorem test_wf_zero_field : CommandWord.zeroFieldOk 0x20#8 = false ∧ CommandWord.legal 0x20#8 = false := by decide
theorem test_wf_pack_field : CommandWord.packFieldOk 0x11#8 = false ∧ CommandWord.legal 0x11#8 = false := by decide
theorem test_wf_op_field : CommandWord.opFieldOk 0x05#8 = false ∧ CommandWord.legal 0x05#8 = false := by decide
theorem test_wf_load_field : CommandWord.loadFieldOk 0x0A#8 = false ∧ CommandWord.legal 0x0A#8 = false := by decide
theorem test_wf_legal_words :
    [0x00#8, 0x08#8, 0x01#8, 0x09#8, 0x02#8, 0x03#8, 0x04#8].all CommandWord.legal = true := by decide
/-- With IDXW = 7, what the core needs (00_scope.md R7), bit index 127 is admitted and 128 is not. -/
theorem test_wf_index :
    (Instr.getbit [] 127 .msbFirst).wfUnder ⟨some 7, none, none⟩ = true ∧
      (Instr.getbit [] 128 .msbFirst).wfUnder ⟨some 7, none, none⟩ = false := by decide
theorem test_wf_length :
    Config.OpenParams.admitsLength ⟨none, some 5, none⟩ 5 = true ∧
      Config.OpenParams.admitsLength ⟨none, some 5, none⟩ 6 = false := by decide
/-- With NINST = 2 the instances are 0 and 1; where NINST is not given, every number is an instance's. -/
theorem test_wf_instances :
    Config.OpenParams.admitsPort ⟨none, none, some 2⟩ 1 = true ∧
      Config.OpenParams.admitsPort ⟨none, none, some 2⟩ 2 = false ∧ Config.openParams.admitsPort 2 = true := by decide

/-! ### Operations -/

/-- P5: GETBIT of 80 01 a5 at 15, MsbFirst, right after reset: OK, 1. -/
theorem test_getbit_after_reset :
    repliesAfter (exec (.getbit [0x80, 0x01, 0xA5] 15 .msbFirst) State.reset) = some [⟨0, .ok (.bit true)⟩] := by rfl

/-- V1: the table for 80 01 a5, both orders, with the first index past the end. -/
theorem test_getbit_table :
    [0, 1, 7, 8, 14, 15, 16, 17, 18, 21, 23, 24, 25, 1000].map (fun i => getBit [0x80, 0x01, 0xA5] i .msbFirst) =
        [true, false, false, false, false, true, true, false, true, true, true, false, false, false] ∧
      [0, 1, 7, 8, 14, 15, 16, 17, 18, 21, 23, 24, 25, 1000].map (fun i => getBit [0x80, 0x01, 0xA5] i .lsbFirst) =
        [false, false, true, true, false, false, true, false, true, true, true, false, false, false] := by decide +kernel

/-- V5: the loaded state of key 01 23 45 67 89 ab cd ef 12 34, IV fe dc ba 98 76 54 32 10 0f 1e, LsbFirst. -/
theorem test_load_lsb :
    loadRegs [0x01, 0x23, 0x45, 0x67, 0x89, 0xAB, 0xCD, 0xEF, 0x12, 0x34]
        [0xFE, 0xDC, 0xBA, 0x98, 0x76, 0x54, 0x32, 0x10, 0x0F, 0x1E] .lsbFirst =
      { a := 0b000000000000000110100000100101110111111001101101010111000100101100111010001010010001100000001#93
        b := 0b000000011110000011110001000000110010010101000111011010011000101110101101110011111110#84
        c := 0b111#111 <<< 108 } := by
  decide +kernel

/-- V9, fourth state: INIT of that key and IV, LsbFirst, one step from reset. -/
theorem test_init_lsb :
    regsAfter (exec (.init [0x01, 0x23, 0x45, 0x67, 0x89, 0xAB, 0xCD, 0xEF, 0x12, 0x34]
        [0xFE, 0xDC, 0xBA, 0x98, 0x76, 0x54, 0x32, 0x10, 0x0F, 0x1E] .lsbFirst .lsbFirst) State.reset) 0 =
      some { a := 0b010101111000101001001010000101100110000011101110011011110111000011100110111000110001001011101#93
             b := 0b011001100110000000100110011000111000001111010111111111000110001001110001000100000011#84
             c := 0b100001110011111101111100111101101111011010001100101010101100101111011110101000100000110010100101011000101111100#111 } := by
  decide +kernel

/-- V6, step 2: z = 1, a 1 enters A[0], C shifts. -/
theorem test_advance_step_two :
    regsAfter (exec .advance (withRegs ⟨0, 0, 0b11#111 <<< 109⟩)) 0 = some ⟨1, 0, 1#111 <<< 110⟩ ∧
      repliesAfter (exec .advance (withRegs ⟨0, 0, 0b11#111 <<< 109⟩)) = some [⟨0, .ok (.bit true)⟩] := by
  decide +kernel

/-- V7, the AND pair A[90], A[91]: z = 0, and a 1 enters B[0]. -/
theorem test_advance_and_pair :
    regsAfter (exec .advance (withRegs ⟨0b11#93 <<< 90, 0, 0⟩)) 0 = some ⟨0b11#93 <<< 91, 1, 0⟩ ∧
      repliesAfter (exec .advance (withRegs ⟨0b11#93 <<< 90, 0, 0⟩)) = some [⟨0, .ok (.bit false)⟩] := by
  decide +kernel

/-- V10, first row: the first KSBYTE of the source's instance is 0xF7. -/
theorem test_ksbyte_first : repliesAfter (exec .ksbyte (running [])) = some [⟨2, .ok (.byte 0xF7)⟩] := by
  decide +kernel

/-- V11: after three ADVANCEs the next KSBYTE packs z_4 .. z_11 = 0xBE. -/
theorem test_ksbyte_shifted :
    repliesAfter (exec .ksbyte (withRegs (Regs.discard 3 regsS1))) = some [⟨0, .ok (.byte 0xBE)⟩] := by
  decide +kernel

/-- P1, command 2: XORBYTE 0x68 is 0x9F. -/
theorem test_xorbyte_first : repliesAfter (exec (.xorbyte 0x68) (running [])) = some [⟨2, .ok (.byte 0x9F)⟩] := by
  decide +kernel

/-- V17: after reset, XORBYTE is refused NotInitialised. -/
theorem test_xorbyte_not_initialised :
    repliesAfter (step (afterReset [requestOf 7 (.xorbyte 0)])) = some [⟨7, .refused .notInitialised⟩] := by rfl

/-- V17: a running instance and command word 0x12: IllegalCommand, registers unchanged. -/
theorem test_illegal_on_running :
    repliesAfter (step (running [⟨2, .command (word 0x12)⟩])) = some [⟨2, .refused (.illegalCommand 0x12)⟩] ∧
      regsAfter (step (running [⟨2, .command (word 0x12)⟩])) 2 = some regsS1 := by decide +kernel

/-- The word of INIT placed by withFetchWord runs in the very next step after reset. -/
theorem test_fetch_word_runs :
    repliesAfter (step (State.reset.withFetchWord 8 1)) = some [⟨0, .ok .nothing⟩] := by rfl

/-- S1, S2: the source's known-answer vector. -/
theorem test_source_vector :
    nextState (triviumXor [0, 0, 0, 0, 0, 0, 0x10, 0, 0, 0] (List.replicate 10 0) [0x68, 0x65, 0x6C, 0x6C, 0x6F]
        (some ['m', 's', 'b'])) =
      some [0x9F, 0x80, 0x4F, 0x68, 0x61] := by
  decide +kernel

/-- V3: tokens in other cases and with spaces, and a token that is none. -/
theorem test_tokens :
    parseBitOrder (some [' ', 'M', 'S', 'B', ' ']) = .next .msbFirst ∧
      parseBitOrder (some ['L', 'S', 'B', '-', 'F', 'I', 'R', 'S', 'T']) = .next .lsbFirst ∧
      parseBitOrder (some ['m', 's', 'b', ' ', 'f', 'i', 'r', 's', 't']) =
        .fault (.invalidBitOrderToken ['m', 's', 'b', ' ', 'f', 'i', 'r', 's', 't']) ∧
      parseBitOrder (some [' ', ' ']) = .refused .emptyToken := ⟨rfl, rfl, rfl, rfl⟩

/-- The constants of 00_scope.md R6 agree with one another and with the registers (A1). -/
theorem test_params :
    Params.lenA + Params.lenB + Params.lenC = Params.stateBits ∧ 4 * Params.stateBits = Params.warmupSteps ∧
      8 * Params.keyBytes = Params.keyBits ∧ 8 * Params.ivBytes = Params.ivBits ∧
      Params.aOut1 < Params.lenA ∧ Params.bOut1 < Params.lenB ∧ Params.cOut1 < Params.lenC := by decide

/-! ### Witnesses: each obligation's hypotheses can be met -/

theorem witness_ResetEventEndsOneInstance :
    (running [⟨2, .reset⟩]).host.pending = ⟨2, .reset⟩ :: [] ∧ (running [⟨2, .reset⟩]).rdy 2 = true := ⟨rfl, rfl⟩

theorem witness_LegalWordsDecodeToTheirOperations :
    (word 0x00#8).cw = 0b00000000#8 ∧ (word 0x08#8).cw = 0b00001000#8 ∧ (word 0x01#8).cw = 0b00000001#8 ∧
      (word 0x09#8).cw = 0b00001001#8 ∧ (word 0x02#8).cw = 0b00000010#8 ∧ (word 0x03#8).cw = 0b00000011#8 ∧
      (word 0x04#8).cw = 0b00000100#8 := by decide

theorem witness_EncodeOfDecodeIsTheCommand :
    decode (word 0x08#8) = .ok (.getbit [] 0 .lsbFirst) ∧ decode (word 0x09#8) = .ok (.init [] [] .lsbFirst .lsbFirst) ∧
      decode (word 0x02#8) = .ok .advance ∧ decode (word 0x03#8) = .ok .ksbyte ∧
      decode (word 0x04#8) = .ok (.xorbyte 0) := ⟨rfl, rfl, rfl, rfl, rfl⟩

theorem witness_StepRunsTheDecodedInstruction :
    (running [⟨2, .command (word 0x02#8)⟩]).host.pending = ⟨2, .command (word 0x02#8)⟩ :: [] ∧
      decode (word 0x02#8) = .ok .advance := ⟨rfl, rfl⟩

theorem witness_IllegalCommandIsRefusedWithItsWord :
    (running [⟨2, .command (word 0x12#8)⟩]).host.pending = ⟨2, .command (word 0x12#8)⟩ :: [] ∧
      CommandWord.legal (word 0x12#8).cw = false := ⟨rfl, by decide⟩

theorem witness_NotInitialisedExactlyWithoutAnInstance :
    (needsReady .advance = true ∧ State.reset.rdy State.reset.host.port = false) ∧
      (needsReady .advance = true ∧ (running []).rdy (running []).host.port = true) := ⟨⟨rfl, rfl⟩, rfl, rfl⟩

theorem witness_EveryStepAnswersANextState :
    State.reset.host.pending = [] ∧ (running [⟨2, .reset⟩]).host.pending ≠ [] := ⟨rfl, by decide⟩

theorem witness_EveryCommandHasOneReply :
    (afterReset [⟨5, .command (word 0x03#8)⟩]).host.pending = ⟨5, .command (word 0x03#8)⟩ :: [] := rfl

theorem witness_RefusalLeavesNoTraceAndRepeats :
    ∃ t, (afterReset [requestOf 5 .ksbyte]).host.pending = requestOf 5 .ksbyte :: [] ∧
      step (afterReset [requestOf 5 .ksbyte]) = .next t ∧
      t.host.replies = (afterReset [requestOf 5 .ksbyte]).host.replies ++ [⟨5, .refused .notInitialised⟩] :=
  ⟨_, rfl, rfl, rfl⟩

/-- The last index in range and the first out of range (40_bit_accessor.md R55). -/
theorem witness_GetbitReturnsTheAddressedBit :
    ([0x80, 0x01, 0xA5] : ByteSeq)[23 / 8]? = some 0xA5 ∧ ([0x80, 0x01, 0xA5] : ByteSeq).length ≤ 24 / 8 := ⟨rfl, by decide⟩

theorem witness_LsbFirstIsMsbFirstOfReversedBytes : 7 < 8 ∧ rev8 0x10#8 = 0x08#8 := by decide

theorem witness_ZeroPaddingAgreesWithOutOfRangeReads : 79 < 80 ∧ getBit (norm10 [1]) 79 .msbFirst = false := by
  decide +kernel

theorem witness_NormalisationGivesTenBytes :
    10 ≤ (List.replicate 11 (1#8)).length ∧ (List.replicate 9 (1#8)).length < 10 ∧
      (List.replicate 10 (1#8)).length = 10 ∧ 8 < min (List.replicate 9 (1#8)).length 10 ∧
      min (List.replicate 9 (1#8)).length 10 ≤ 9 ∧
      (List.replicate 11 (1#8)).take 10 = (List.replicate 10 (1#8)).take 10 := by decide

theorem witness_KeyAndIvBitsGoToTheirCells :
    (norm10 [0x80])[0]? = some 0x80#8 ∧ (norm10 [0x80])[9]? = some 0x00#8 ∧
      cell (loadRegs (norm10 [0x80]) (norm10 [0x01]) .msbFirst).a 0 = true ∧
      cell (loadRegs (norm10 [0x80]) (norm10 [0x01]) .lsbFirst).b 0 = true ∧ 80 ≤ 83 ∧ 80 ≤ 92 := by decide +kernel

theorem witness_LoadedStateSeedsRegisterC : 107 ≤ 107 ∧ cell (loadRegs [] [] .msbFirst).c 107 = false := by
  decide +kernel

theorem witness_InitDependsOnItsOperandsOnly :
    norm10 [1, 2, 3] = norm10 [1, 2, 3, 0] ∧ norm10 [] = norm10 [0] := by decide

/-- With the ends of the ranges of cells, and another instance number. -/
theorem witness_AdvanceShiftsAndInsertsTheFeedbackBits :
    instanceAt (running []).instances (running []).host.port = some instS1 ∧ 3 ≠ (running []).host.port ∧
      (1 ≤ 1 ∧ 1 ≤ 92) ∧ (1 ≤ 92 ∧ 92 ≤ 92) ∧ (1 ≤ 83 ∧ 83 ≤ 83) ∧ (1 ≤ 110 ∧ 110 ≤ 110) := ⟨rfl, by decide⟩

theorem witness_KsbytePacksEightKeystreamBits :
    instanceAt (running []).instances (running []).host.port = some instS1 ∧ 3 ≠ (running []).host.port ∧ 0 < 8 ∧ 7 < 8 :=
  ⟨rfl, by decide⟩

/-- At the smallest and the largest data byte. -/
theorem witness_XorbyteXorsTheKeystreamByte :
    instanceAt (running []).instances (running []).host.port = some instS1 ∧ 3 ≠ (running []).host.port ∧ 0 < 8 ∧ 7 < 8 ∧
      (∃ t, exec (.xorbyte 0x00) (running []) = .next t) ∧ ∃ t, exec (.xorbyte 0xFF) (running []) = .next t :=
  ⟨rfl, by decide, by decide, by decide, ⟨_, rfl⟩, _, rfl⟩

theorem witness_EightAdvancesMakeOneKsbyte : instanceAt (running []).instances 2 = some instS1 := rfl

theorem witness_XorbyteOfZeroIsKsbyte :
    instanceAt (running []).instances (running []).host.port = some instS1 ∧
      instanceAt State.reset.instances State.reset.host.port = none := ⟨rfl, rfl⟩

theorem witness_XorbyteCommandsComputeXorbytes :
    instanceAt (running []).instances 2 = some instS1 ∧ 3 ≠ 2 := ⟨rfl, by decide⟩

theorem witness_RegistersCountTheKeystreamBits :
    instanceAt (running []).instances 2 = some instS1 ∧
      ∀ i ∈ [Instr.advance, .ksbyte, .xorbyte 0xFF#8], needsReady i = true := ⟨rfl, by decide⟩

theorem witness_OperationsLeaveTheRestAlone :
    (∃ t, exec (.getbit [1] 0 .lsbFirst) (running []) = .next t) ∧ (∃ t, exec (.init [] [] .msbFirst .lsbFirst) (running []) = .next t) ∧
      (∃ t, exec .advance (running []) = .next t) ∧ (∃ t, exec .ksbyte State.reset = .next t) ∧
      (∃ t, exec (.xorbyte 1) (running []) = .next t) ∧ State.reset.rdy State.reset.host.port = false :=
  ⟨⟨_, rfl⟩, ⟨_, rfl⟩, ⟨_, rfl⟩, ⟨_, rfl⟩, ⟨_, rfl⟩, rfl⟩

theorem witness_OnlyInitAndResetChangeRdy :
    (running [⟨2, .reset⟩]).host.pending = ⟨2, .reset⟩ :: [] ∧
      issuesInit (requestOf 4 (.init [] [] .lsbFirst .lsbFirst)).event = true ∧
      issuesInit (requestOf 4 .advance).event = false := ⟨rfl, rfl, rfl⟩

theorem witness_LoadOrderIsWrittenByInitOnly :
    instanceAt (running []).instances (running []).host.port = some instS1 ∧
      ∀ key iv o p, Instr.ksbyte ≠ .init key iv o p := ⟨rfl, by simp⟩

theorem witness_StepTouchesOneInstanceOnly :
    (running [requestOf 2 .advance]).host.pending = requestOf 2 .advance :: [] ∧
      (running [requestOf 2 .advance, ⟨2, .reset⟩]).host.pending = requestOf 2 .advance :: [⟨2, .reset⟩] ∧
      instanceAt (running [requestOf 2 .advance]).instances 2 =
        instanceAt (running [requestOf 2 .advance, ⟨2, .reset⟩]).instances 2 := ⟨rfl, rfl, rfl⟩

theorem witness_DifferentInstancesCommute :
    canonical (running []).instances = true ∧ (requestOf 2 .advance).port ≠ (requestOf 3 .ksbyte).port := by decide

theorem witness_EveryStepKeepsTheInvariant :
    Inv (running [requestOf 2 .advance]) ∧ ∃ t, step (running [requestOf 2 .advance]) = .next t := by
  refine ⟨⟨by decide, fun k x h => ?_⟩, _, rfl⟩
  by_cases hk : 2 = k
  · have hx : x = instS1 := by simpa [running, instanceAt, hk] using h.symm
    subst hx
    decide +kernel
  · simp [running, instanceAt, hk] at h

theorem witness_XorbytesUsesTheKeystreamInOrder : ([0x68, 0x65] : ByteSeq)[1]? = some 0x65 ∧ 7 < 8 := by decide

theorem witness_TriviumXorCommandsComputeTriviumXor :
    triviumXorRequests 2 [1] [] [0x68] none =
      .next [requestOf 2 (.init [1] [] .msbFirst .lsbFirst), requestOf 2 (.xorbyte 0x68)] := rfl

theorem witness_TriviumXorIsAnInvolution : parseBitOrder (some ['l', 's', 'b']) = .next .lsbFirst := rfl

theorem witness_TriviumXorKeepsTheLength : parseBitOrder none = .next .msbFirst := rfl

theorem witness_PaddedAndTruncatedKeysAreTheSameKey :
    ([1, 2, 3] : ByteSeq).length = 3 ∧ ([0xAA, 0xBB] : ByteSeq).length = 2 ∧ 10 < (List.replicate 11 (1#8)).length := by
  decide

theorem witness_TokenTableIsRead :
    ['M', 's', 'B'].map Char.toLower ∈ msbSpellings ∧ ['l', 'S', 'b', '_', 'F', 'i', 'r', 's', 't'].map Char.toLower ∈ lsbSpellings := by
  decide +kernel

/-- The last clause of TokenTableIsRead at the token of one character `1` (V3): printable ASCII, not only spaces, and no
way of taking spaces off leaves an accepted spelling. -/
theorem witness_TokenTableIsRead_error :
    (∀ ch ∈ ['1'], 32 ≤ ch.toNat ∧ ch.toNat ≤ 126) ∧ (∃ ch ∈ ['1'], ch ≠ ' ') ∧
      ∀ (m n : Nat) (w : Token), ['1'] = List.replicate m ' ' ++ w ++ List.replicate n ' ' →
        w.map Char.toLower ∉ msbSpellings ++ lsbSpellings := by
  refine ⟨by simp, ⟨'1', by simp, by decide⟩, fun m n w h hw => ?_⟩
  have hl : w.length ≤ 1 := by
    have := congrArg List.length h
    simp at this
    omega
  have h3 : ∀ l ∈ msbSpellings ++ lsbSpellings, 3 ≤ l.length := by decide
  have := h3 _ hw
  simp at this
  omega

/-- The three parts of the error's message (60_exceptions.md R90), for the value `x`: in any order they are allowed, and
with any one of them missing the message is not. -/
theorem test_message_names_its_three_parts :
    let f := Fault.invalidBitOrderToken ['x']
    f.messageAllowed ['x', 'm', 's', 'b', 'l', 's', 'b'] = true ∧
      f.messageAllowed ['l', 's', 'b', ' ', 'm', 's', 'b', ' ', 'x'] = true ∧
      f.messageAllowed ['m', 's', 'b', 'l', 's', 'b'] = false ∧ f.messageAllowed ['x', 'l', 's', 'b'] = false ∧
      f.messageAllowed ['x', 'm', 's', 'b'] = false := by decide +kernel

theorem witness_TheOnlyErrorIsTheInvalidToken :
    parseBitOrder (some ['f', 'o', 'o']) = .fault (.invalidBitOrderToken ['f', 'o', 'o']) := rfl

/-- Instance 2 of three, the last one, and instance 0 of one. -/
theorem witness_EveryStepStaysWithinTheInstances :
    withinInstances ⟨none, none, some 3⟩ (running [requestOf 2 .advance]) ∧
      (∃ t, step (running [requestOf 2 .advance]) = .next t) ∧
      canonical (withRegs regsS1).instances = true ∧ withinInstances ⟨none, none, some 1⟩ (withRegs regsS1) := by
  refine ⟨⟨fun k x h => ?_, by simp [running, requestOf]⟩, ⟨_, rfl⟩, rfl, fun k x h => ?_, by simp [withRegs, State.reset]⟩
  · have hk := mem_of_instanceAt h
    simp [running] at hk
    simp [hk.1]
  · have hk := mem_of_instanceAt h
    simp [withRegs] at hk
    simp [hk.1]

end Sys2Proof.Tests
end

section
/-! PROOFS. The state (10_state.md): what serving one event reads and writes (R24, O33), and LOAD_ORDER (R14, O32). -/

namespace Sys2Proof.Proofs

open Sys2Proof.Machine Sys2Proof.Safety

/-! ### The operations that need RDY = 1 -/

/-- The operation works the same with any LOAD_ORDER in the instance, and hands that LOAD_ORDER on. -/
def CarriesLoadOrder (f : Instance → Result × Instance) : Prop :=
  ∀ (x : Instance) (o : BitOrder), f { x with loadOrder := o } = ((f x).1, { (f x).2 with loadOrder := o })

theorem advance_carriesLoadOrder : CarriesLoadOrder fun x => (.bit x.advance.1, x.advance.2) :=
  fun _ _ => rfl

theorem ksByte_carriesLoadOrder : CarriesLoadOrder fun x => (.byte x.ksByte.1, x.ksByte.2) :=
  fun x o => by simp only [Instance.ksByte]

theorem xorByte_carriesLoadOrder (d : Byte) : CarriesLoadOrder fun x => (.byte (x.xorByte d).1, (x.xorByte d).2) :=
  fun x o => by simp only [Instance.xorByte, Instance.ksByte]

/-- ADVANCE, KSBYTE and XORBYTE are each a function of the running instance that carries its LOAD_ORDER along. -/
theorem exec_of_needsReady {i : Instr} (h : needsReady i = true) :
    ∃ f, CarriesLoadOrder f ∧ ∀ s, exec i s = onInstance s f := by
  cases i with
  | getbit | init => simp [needsReady] at h
  | advance => exact ⟨_, advance_carriesLoadOrder, fun _ => rfl⟩
  | ksbyte => exact ⟨_, ksByte_carriesLoadOrder, fun _ => rfl⟩
  | xorbyte d => exact ⟨_, xorByte_carriesLoadOrder d, fun _ => rfl⟩

/-- An operation is GETBIT, INIT or one that needs RDY = 1. -/
theorem getbit_or_init_or_needsReady (i : Instr) :
    (∃ bytes n o, i = .getbit bytes n o) ∨ (∃ key iv o p, i = .init key iv o p) ∨ needsReady i = true := by
  cases i with
  | getbit bytes n o => exact .inl ⟨bytes, n, o, rfl⟩
  | init key iv o p => exact .inr (.inl ⟨key, iv, o, p, rfl⟩)
  | advance | ksbyte | xorbyte => exact .inr (.inr rfl)

/-! ### What serving one event reads and writes -/

/-- All that serving one event can do to the state (`serveEvent_cases`), as data. -/
inductive Effect where
  | reset
  | reply (r : Response)
  | write (y : Instance) (r : Response)

namespace Effect

/-- The state after the effect. -/
def apply : Effect → State → State
  | .reset, s => s.resetCurrent
  | .reply r, s => s.reply r
  | .write y r, s => (s.setCurrent y).reply r

/-- The instance served after the effect, from what it was before. -/
def instanceAfter : Effect → Option Instance → Option Instance
  | .reset, _ => none
  | .reply _, x => x
  | .write y _, _ => some y

/-- The replies the effect adds, when it is on instance `k`. -/
def replies : Effect → Nat → List Reply
  | .reset, _ => []
  | .reply r, k => [⟨k, r⟩]
  | .write _ r, k => [⟨k, r⟩]

theorem apply_instanceAfter (e : Effect) (s : State) :
    instanceAt (e.apply s).instances s.host.port = e.instanceAfter s.current := by
  cases e with
  | reset => simp [apply, instanceAfter]
  | reply r => rfl
  | write y r => simp [apply, instanceAfter]

theorem apply_other (e : Effect) (s : State) {j : Nat} (h : j ≠ s.host.port) :
    instanceAt (e.apply s).instances j = instanceAt s.instances j := by
  cases e with
  | reset => simp [apply, instanceAt_dropInstance, h]
  | reply r => rfl
  | write y r => simp [apply, instanceAt_putInstance, h]

theorem apply_replies (e : Effect) (s : State) :
    (e.apply s).host.replies = s.host.replies ++ e.replies s.host.port := by
  cases e with
  | reset => simp [apply, replies]
  | reply r => rfl
  | write y r => rfl

theorem port_of_mem_replies {e : Effect} {k : Nat} {p : Reply} (h : p ∈ e.replies k) : p.port = k := by
  cases e with
  | reset => cases h
  | reply r => exact congrArg Reply.port (List.mem_singleton.mp h)
  | write y r => exact congrArg Reply.port (List.mem_singleton.mp h)

theorem repliesOf_apply_other (e : Effect) (s : State) {j : Nat} (h : j ≠ s.host.port) :
    repliesOf j (e.apply s) = repliesOf j s := by
  have none_for_j : (e.replies s.host.port).filter (fun p => p.port == j) = [] :=
    List.filter_eq_nil_iff.mpr fun p hp => by simp [port_of_mem_replies hp, h.symm]
  simp [repliesOf_append j (e.apply_replies s), none_for_j]

end Effect

/-- The effect of an operation on the running instance is a function of that instance. -/
theorem onInstance_reads_current (f : Instance → Result × Instance) :
    ∃ g : Option Instance → Effect, ∀ s, onInstance s f = .next ((g s.current).apply s) := by
  refine ⟨fun c => c.elim (.reply (.refused .notInitialised)) fun x => .write (f x).2 (.ok (f x).1), fun s => ?_⟩
  cases h : s.current with
  | none => exact onInstance_none f h
  | some x => exact onInstance_some f h

/-- Of the state, an operation reads only the instance it is for. -/
theorem exec_reads_current (i : Instr) :
    ∃ g : Option Instance → Effect, ∀ s, exec i s = .next ((g s.current).apply s) := by
  rcases getbit_or_init_or_needsReady i with ⟨bytes, n, o, rfl⟩ | ⟨key, iv, o, p, rfl⟩ | hready
  · exact ⟨fun _ => .reply (.ok (.bit (getBit bytes n o))), fun _ => rfl⟩
  · exact ⟨fun _ => .write (newInstance key iv o p) (.ok .nothing), fun _ => rfl⟩
  · obtain ⟨f, -, hf⟩ := exec_of_needsReady hready
    simpa only [hf] using onInstance_reads_current f

/-- Of the state, an event of the host reads only the instance it is for. -/
theorem serveEvent_reads_current (e : HostEvent) :
    ∃ g : Option Instance → Effect, ∀ s, serveEvent exec e s = .next ((g s.current).apply s) := by
  cases e with
  | reset => exact ⟨fun _ => .reset, fun _ => rfl⟩
  | command c =>
    simp only [serveEvent, serveCommand]
    cases decode c with
    | error e => exact ⟨fun _ => .reply (.refused (.illegalCommand e.word)), fun _ => rfl⟩
    | ok i => exact exec_reads_current i

/-- A step's effect is a function of its request's event and of the instance the request is for. -/
theorem step_reads_served (q : Request) :
    ∃ g : Option Instance → Effect, ∀ (s : State) (rest : List Request), s.host.pending = q :: rest →
      step s = .next ((g (instanceAt s.instances q.port)).apply (served s q rest)) := by
  obtain ⟨g, hg⟩ := serveEvent_reads_current q.event
  exact ⟨g, fun s rest h => (step_cons h).trans (hg _)⟩

/-- Settles O33: both steps have the same effect, since the effect is a function of the instance served. -/
theorem stepTouchesOneInstanceOnly : Obligations.StepTouchesOneInstanceOnly := by
  intro s s' q rest rest' hs hs' hq
  obtain ⟨g, hg⟩ := step_reads_served q
  let e := g (instanceAt s.instances q.port)
  have hstep' : step s' = .next (e.apply (served s' q rest')) := by simpa only [e, hq] using hg s' rest' hs'
  refine ⟨_, _, e.replies q.port, hg s rest hs, hstep', fun j hj => ?_, ?_,
    e.apply_replies (served s q rest), e.apply_replies (served s' q rest')⟩
  · exact ⟨e.apply_other (served s q rest) hj, e.repliesOf_apply_other (served s q rest) hj⟩
  · calc instanceAt (e.apply (served s q rest)).instances q.port
        = e.instanceAfter (instanceAt s.instances q.port) := e.apply_instanceAfter (served s q rest)
      _ = e.instanceAfter (instanceAt s'.instances q.port) := by rw [hq]
      _ = instanceAt (e.apply (served s' q rest')).instances q.port := (e.apply_instanceAfter (served s' q rest')).symm

/-! ### LOAD_ORDER -/

theorem CarriesLoadOrder.loadOrder_eq {f : Instance → Result × Instance} (hf : CarriesLoadOrder f) (x : Instance) :
    (f x).2.loadOrder = x.loadOrder :=
  congrArg (·.2.loadOrder) (hf x x.loadOrder)

/-- INIT writes its own new instance, whatever stood there. -/
theorem exec_init_instanceAt (key iv : ByteSeq) (o : BitOrder) (p : PackOrder) (s : State) :
    ∃ t, exec (.init key iv o p) s = .next t ∧
      instanceAt t.instances s.host.port = some (newInstance key iv o p) :=
  ⟨_, rfl, instanceAt_putInstance_same _ _ _⟩

/-- No operation but INIT writes LOAD_ORDER. -/
theorem exec_keeps_loadOrder (i : Instr) (s : State) (x : Instance)
    (hx : instanceAt s.instances s.host.port = some x) (hi : ∀ key iv o p, i ≠ .init key iv o p) :
    ∃ t y, exec i s = .next t ∧ instanceAt t.instances s.host.port = some y ∧ y.loadOrder = x.loadOrder := by
  rcases getbit_or_init_or_needsReady i with ⟨bytes, n, o, rfl⟩ | ⟨key, iv, o, p, rfl⟩ | hready
  · exact ⟨_, x, rfl, hx, rfl⟩
  · exact absurd rfl (hi key iv o p)
  · obtain ⟨f, hf, hexec⟩ := exec_of_needsReady hready
    exact ⟨_, (f x).2, (hexec s).trans (onInstance_some f hx), instanceAt_putInstance_same _ _ _, hf.loadOrder_eq x⟩

/-- No operation reads the LOAD_ORDER of the instance it is for. -/
theorem exec_ignores_loadOrder (i : Instr) (s : State) (x : Instance) (o : BitOrder)
    (hx : instanceAt s.instances s.host.port = some x) :
    ∃ t u y z, exec i s = .next t ∧ exec i (s.setCurrent { x with loadOrder := o }) = .next u ∧
      instanceAt t.instances s.host.port = some y ∧ instanceAt u.instances s.host.port = some z ∧
      y.regs = z.regs ∧ y.packOrder = z.packOrder ∧ t.host = u.host := by
  have hx' : (s.setCurrent { x with loadOrder := o }).current = some { x with loadOrder := o } :=
    instanceAt_putInstance_same _ _ _
  rcases getbit_or_init_or_needsReady i with ⟨bytes, n, o', rfl⟩ | ⟨key, iv, o', p, rfl⟩ | hready
  · exact ⟨_, _, x, _, rfl, rfl, hx, hx', rfl, rfl, rfl⟩
  · exact ⟨_, _, _, _, rfl, rfl, instanceAt_putInstance_same _ _ _, instanceAt_putInstance_same _ _ _, rfl, rfl, rfl⟩
  · obtain ⟨f, hf, hexec⟩ := exec_of_needsReady hready
    refine ⟨_, _, _, _, (hexec s).trans (onInstance_some f hx), (hexec _).trans (onInstance_some f hx'),
      instanceAt_putInstance_same _ _ _, instanceAt_putInstance_same _ _ _, ?_⟩
    simp [hf x o, State.reply]

/-- Settles O32, clause by clause. -/
theorem loadOrderIsWrittenByInitOnly : Obligations.LoadOrderIsWrittenByInitOnly := by
  refine ⟨fun x => ?_, fun key iv o p s => ?_, exec_keeps_loadOrder, exec_ignores_loadOrder, rfl⟩
  · cases x.loadOrder with
    | msbFirst => exact .inl rfl
    | lsbFirst => exact .inr rfl
  · obtain ⟨t, ht, hy⟩ := exec_init_instanceAt key iv o p s
    exact ⟨t, _, ht, hy, newInstance_loadOrder key iv o p⟩

end Sys2Proof.Proofs
end

section
/-! PROOFS. Memory (20_memory.md): normalisation of key and IV to ten bytes (R27, O16). -/

namespace Sys2Proof.Proofs

open Sys2Proof.Machine

/-! ### The bytes of a normalised sequence -/

theorem norm10_of_le {x : ByteSeq} (h : 10 ≤ x.length) : norm10 x = x.take 10 :=
  if_pos h

theorem norm10_of_lt {x : ByteSeq} (h : x.length < 10) : norm10 x = x ++ List.replicate (10 - x.length) 0#8 :=
  if_neg (Nat.not_le.mpr h)

theorem norm10_of_length_eq {x : ByteSeq} (h : x.length = 10) : norm10 x = x :=
  (norm10_of_le h.ge).trans (List.take_of_length_le h.le)

@[simp] theorem norm10_norm10 (x : ByteSeq) : norm10 (norm10 x) = norm10 x :=
  norm10_of_length_eq (norm10_length x)

theorem norm10_getElem?_of_lt_length {x : ByteSeq} {i : Nat} (h : i < min x.length 10) : (norm10 x)[i]? = x[i]? := by
  obtain ⟨hx, h10⟩ := lt_min_iff.mp h
  rcases Nat.lt_or_ge x.length 10 with hlt | hge
  · rw [norm10_of_lt hlt, List.getElem?_append_left hx]
  · rw [norm10_of_le hge, List.getElem?_take_of_lt h10]

theorem norm10_getElem?_of_length_le {x : ByteSeq} {i : Nat} (hi : min x.length 10 ≤ i) (h10 : i < 10) :
    (norm10 x)[i]? = some 0#8 := by
  have hx : x.length ≤ i := by omega
  have hpad : i - x.length < 10 - x.length := by omega
  rw [norm10_of_lt (hx.trans_lt h10), List.getElem?_append_right hx, List.getElem?_replicate_of_lt hpad]

/-- Bytes from the eleventh on are never read. -/
theorem norm10_eq_of_take_eq {x y : ByteSeq} (hx : 10 ≤ x.length) (hy : 10 ≤ y.length)
    (h : x.take 10 = y.take 10) : norm10 x = norm10 y := by
  rw [norm10_of_le hx, norm10_of_le hy, h]

/-! ### INIT reads its key and its IV through `norm10` only -/

theorem newInstance_congr {key key' iv iv' : ByteSeq} (o : BitOrder) (p : PackOrder)
    (hk : norm10 key = norm10 key') (hv : norm10 iv = norm10 iv') :
    newInstance key iv o p = newInstance key' iv' o p := by
  simp only [newInstance, hk, hv]

theorem exec_init_congr {key key' iv iv' : ByteSeq} (o : BitOrder) (p : PackOrder) (s : State)
    (hk : norm10 key = norm10 key') (hv : norm10 iv = norm10 iv') :
    exec (.init key iv o p) s = exec (.init key' iv' o p) s := by
  simp only [exec, execInit, newInstance_congr o p hk hv]

/-- No key and no IV is refused, whatever its length. -/
theorem exec_init_replies (key iv : ByteSeq) (o : BitOrder) (p : PackOrder) (s : State) :
    ∃ t, exec (.init key iv o p) s = .next t ∧ t.host.replies = s.host.replies ++ [⟨s.host.port, .ok .nothing⟩] :=
  ⟨_, rfl, rfl⟩

/-- Settles O16: the bytes by the two cases of `norm10`, the claims on INIT since it reads the normalised forms only. -/
theorem normalisationGivesTenBytes : Obligations.NormalisationGivesTenBytes := by
  refine ⟨fun x => ⟨norm10_length x, norm10_of_le, norm10_of_lt, norm10_of_length_eq,
      fun i => norm10_getElem?_of_lt_length, fun i => norm10_getElem?_of_length_le⟩, rfl, ?_, ?_, rfl, rfl⟩
  · intro key key' iv o p s hk hk' htake
    exact exec_init_congr o p s (norm10_eq_of_take_eq hk hk' htake) rfl
  · intro key iv o p s
    exact ⟨exec_init_congr o p s (norm10_norm10 key).symm (norm10_norm10 iv).symm, exec_init_replies key iv o p s⟩

end Sys2Proof.Proofs
end

section
/-! PROOFS. Encoding (30_encoding.md): assembly of a byte from the bits in the order they were produced (R48, O24). -/

namespace Sys2Proof.Proofs

open Sys2Proof.Machine

/-- The bits are the base-2 digits of the packed byte, the first produced the least significant. -/
theorem packLsbFirst_eq_ofNat_ofDigits (zs : List Bool) :
    packLsbFirst zs = BitVec.ofNat 8 (Nat.ofDigits 2 (zs.map Bool.toNat)) := by
  induction zs with
  | nil => rfl
  | cons z zs ih =>
    have first_digit : (if z then 1#8 else 0#8) = BitVec.ofNat 8 z.toNat := by cases z <;> rfl
    rw [packLsbFirst, ih, first_digit, List.map_cons, Nat.ofDigits_cons, BitVec.ofNat_add, BitVec.ofNat_mul]

/-- Up to eight bits nothing is carried out of the byte. -/
theorem packLsbFirst_toNat_of_length_le {zs : List Bool} (h : zs.length ≤ 8) :
    (packLsbFirst zs).toNat = Nat.ofDigits 2 (zs.map Bool.toNat) := by
  have digits_lt : ∀ d ∈ zs.map Bool.toNat, d < 2 :=
    List.forall_mem_map.mpr fun z _ => z.toNat_lt
  have fits : Nat.ofDigits 2 (zs.map Bool.toNat) < 2 ^ 8 :=
    calc Nat.ofDigits 2 (zs.map Bool.toNat)
        < 2 ^ (zs.map Bool.toNat).length := Nat.ofDigits_lt_base_pow_length (by decide) digits_lt
      _ ≤ 2 ^ 8 := Nat.pow_le_pow_right (by decide) (by simpa using h)
  rw [packLsbFirst_eq_ofNat_ofDigits, BitVec.toNat_ofNat, Nat.mod_eq_of_lt fits]

theorem packBits_eq_packLsbFirst (p : PackOrder) (zs : List Bool) : packBits p zs = packLsbFirst zs := by
  cases p
  rfl

/-- The weighted sum of R48: the eight base-2 digits written out. -/
theorem packBits_toNat_of_eight (p : PackOrder) (z0 z1 z2 z3 z4 z5 z6 z7 : Bool) :
    (packBits p [z0, z1, z2, z3, z4, z5, z6, z7]).toNat =
      z0.toNat + 2 * z1.toNat + 4 * z2.toNat + 8 * z3.toNat + 16 * z4.toNat + 32 * z5.toNat + 64 * z6.toNat +
        128 * z7.toNat := by
  rw [packBits_eq_packLsbFirst, packLsbFirst_toNat_of_length_le (by simp)]
  simp only [List.map_cons, List.map_nil, Nat.ofDigits_cons, Nat.ofDigits_nil]
  ring

/-- Settles O24: the weighted sum, and the rule's example as the sum at its eight bits. -/
theorem packedByteIsTheWeightedSum : Obligations.PackedByteIsTheWeightedSum :=
  ⟨packBits_toNat_of_eight, fun p =>
    BitVec.eq_of_toNat_eq (packBits_toNat_of_eight p true true true false true true true true)⟩

end Sys2Proof.Proofs
end

section
/-! PROOFS. The state machine (41_nfsr_state_machine.md): the key and IV bits INIT loads (R62, O17). -/

namespace Sys2Proof.Proofs

open Sys2Proof.Machine

/-! ### The bits of a byte sequence -/

theorem getBit_of_getElem? {bytes : ByteSeq} {i : Nat} {b : Byte} (h : bytes[i / 8]? = some b) (o : BitOrder) :
    getBit bytes i o = bitInByte b (i % 8) o := by
  simp only [getBit, h]

/-- The first and the last of 80 bits under each order: the corner cells of R62, read from the sequence. -/
theorem getBit_corners {bytes : ByteSeq} {b0 b9 : Byte} (h0 : bytes[0]? = some b0) (h9 : bytes[9]? = some b9) :
    getBit bytes 0 .msbFirst = b0.getLsbD 7 ∧ getBit bytes 79 .msbFirst = b9.getLsbD 0 ∧
      getBit bytes 0 .lsbFirst = b0.getLsbD 0 ∧ getBit bytes 79 .lsbFirst = b9.getLsbD 7 :=
  ⟨getBit_of_getElem? (i := 0) h0 _, getBit_of_getElem? (i := 79) h9 _,
    getBit_of_getElem? (i := 0) h0 _, getBit_of_getElem? (i := 79) h9 _⟩

/-! ### The cells of A and B in the loaded state -/

/-- A register longer than the 80 bits loaded into it has those bits below cell 80 and zeros from there on. -/
theorem cell_ofCells_padded {n : Nat} (h : 80 ≤ n) (f : Nat → Bool) (i : Nat) :
    cell (ofCells n fun j => decide (j < 80) && f j) i = (decide (i < 80) && f i) := by
  rw [cell_ofCells]
  rcases Nat.lt_or_ge i 80 with hi | hi
  · simp [hi, hi.trans_le h]
  · simp [hi.not_gt]

theorem cell_loadRegs_a (K V : ByteSeq) (o : BitOrder) (i : Nat) :
    cell (loadRegs K V o).a i = (decide (i < 80) && getBit K i o) :=
  cell_ofCells_padded (by decide) _ i

theorem cell_loadRegs_b (K V : ByteSeq) (o : BitOrder) (i : Nat) :
    cell (loadRegs K V o).b i = (decide (i < 80) && getBit V i o) :=
  cell_ofCells_padded (by decide) _ i

/-- Settles O17: cells 0 to 79 are the bits of the operand and the rest its padding; the corner cells are then the
corner bits of the operand. -/
theorem keyAndIvBitsGoToTheirCells : Obligations.KeyAndIvBitsGoToTheirCells := by
  intro key iv o
  refine ⟨fun i hi => ?_, fun i h80 _ => ?_, fun i hi => ?_, fun i h80 _ => ?_, fun k0 k9 h0 h9 => ?_,
    fun v0 v9 h0 h9 => ?_⟩
  · simp [cell_loadRegs_a, hi]
  · simp [cell_loadRegs_a, h80.not_gt]
  · simp [cell_loadRegs_b, hi]
  · simp [cell_loadRegs_b, h80.not_gt]
  · simpa [cell_loadRegs_a] using getBit_corners h0 h9
  · simpa [cell_loadRegs_b] using getBit_corners h0 h9

end Sys2Proof.Proofs
end

section
/-! PROOFS. The keystream packer (42_keystream_packer.md): what R81, R82, R83 and R86 require of TRIVIUM_XOR (O41, O42,
O43, O46). -/

namespace Sys2Proof.Proofs

open Sys2Proof.Machine

/-! ### XORBYTES -/

@[simp] theorem xorBytes_nil (x : Instance) : x.xorBytes [] = ([], x) := rfl

/-- The data byte enters only the XOR; the instance goes on as after KSBYTE (R87). -/
@[simp] theorem xorBytes_cons (x : Instance) (d : Byte) (ds : ByteSeq) :
    x.xorBytes (d :: ds) = ((d ^^^ x.ksByte.1) :: (x.ksByte.2.xorBytes ds).1, (x.ksByte.2.xorBytes ds).2) := rfl

@[simp] theorem xorBytes_length (x : Instance) (data : ByteSeq) : (x.xorBytes data).1.length = data.length := by
  induction data generalizing x with
  | nil => rfl
  | cons d ds ih => simp [ih]

/-- From one and the same instance XORBYTES undoes itself: each byte meets the same keystream byte twice. -/
@[simp] theorem xorBytes_xorBytes (x : Instance) (data : ByteSeq) :
    (x.xorBytes (x.xorBytes data).1).1 = data := by
  induction data generalizing x with
  | nil => rfl
  | cons d ds ih => simp only [xorBytes_cons, xor_cancel_right, ih]

/-- Without an INIT between, a byte comes back only when the next two keystream bytes happen to be equal. -/
theorem xorBytes_resumed_eq_iff (x : Instance) (d : Byte) :
    ((x.xorBytes [d]).2.xorBytes (x.xorBytes [d]).1).1 = [d] ↔ x.ksByte.1 = x.ksByte.2.ksByte.1 := by
  have cancel (a b : Byte) : d ^^^ a ^^^ b = d ↔ a = b := by
    rw [BitVec.xor_assoc, xor_left_eq_self_iff]
    exact BitVec.xor_eq_zero_iff
  simp [cancel]

/-! ### TRIVIUM_XOR reads its token first -/

theorem triviumXor_of_parse_next {token : Option Token} {o : BitOrder} (h : parseBitOrder token = .next o)
    (key iv data : ByteSeq) :
    triviumXor key iv data token = .next ((newInstance key iv o .lsbFirst).xorBytes data).1 := by
  simp only [triviumXor, h]

theorem triviumXor_of_parse_fault {token : Option Token} {f : Fault} (h : parseBitOrder token = .fault f)
    (key iv data : ByteSeq) : triviumXor key iv data token = .fault f := by
  simp only [triviumXor, h]

theorem triviumXorRequests_of_parse_fault {token : Option Token} {f : Fault} (h : parseBitOrder token = .fault f)
    (k : Nat) (key iv data : ByteSeq) : triviumXorRequests k key iv data token = .fault f := by
  simp only [triviumXorRequests, h]

theorem parseBitOrder_foo :
    parseBitOrder (some ['f', 'o', 'o']) = .fault (.invalidBitOrderToken ['f', 'o', 'o']) := rfl

/-- Settles O46: the token is read before anything else. -/
theorem invalidTokenIssuesNoCommand : Obligations.InvalidTokenIssuesNoCommand := fun k key iv data =>
  ⟨triviumXor_of_parse_fault parseBitOrder_foo key iv data,
    triviumXorRequests_of_parse_fault parseBitOrder_foo k key iv data⟩

/-! ### Length and involution -/

/-- Settles O42: TRIVIUM_XOR answers what XORBYTES answers on the new instance. -/
theorem triviumXorKeepsTheLength : Obligations.TriviumXorKeepsTheLength := by
  intro key iv data token o ho
  refine ⟨_, triviumXor_of_parse_next ho key iv data, xorBytes_length _ data, fun hempty => ?_⟩
  rw [hempty, xorBytes_nil]

/-- The key of the source's known-answer vector (95_test_vectors.md S1). -/
def sourceKey : ByteSeq := [0, 0, 0, 0, 0, 0, 0x10, 0, 0, 0]

/-- The first two keystream bytes of the source's vector (95_test_vectors.md V10), under its all-zero IV. -/
theorem ksByte_sourceKey :
    (newInstance sourceKey [] .msbFirst .lsbFirst).ksByte.1 = 0xF7 ∧
      (newInstance sourceKey [] .msbFirst .lsbFirst).ksByte.2.ksByte.1 = 0xE5 := by
  decide +kernel

/-- Settles O41: both calls start from the same new instance; a resumed instance fails on the first two keystream bytes
of the source's vector, 0xF7 and 0xE5. -/
theorem triviumXorIsAnInvolution : Obligations.TriviumXorIsAnInvolution := by
  refine ⟨fun key iv data token o ho => ?_, sourceKey, [], [0], .msbFirst, fun h => ?_⟩
  · refine ⟨_, triviumXor_of_parse_next ho key iv data, ?_⟩
    rw [triviumXor_of_parse_next ho, xorBytes_xorBytes]
  · obtain ⟨first, second⟩ := ksByte_sourceKey
    have same : (0xF7 : Byte) = 0xE5 := by
      rw [← first, ← second]
      exact (xorBytes_resumed_eq_iff _ 0).mp h
    exact absurd same (by decide)

/-! ### Padding and truncation -/

/-- Zero bytes appended up to ten are those `norm10` appends itself. -/
theorem norm10_append_zeros {x : ByteSeq} {n : Nat} (hx : x.length < 10) (hn : n = 10 - x.length) :
    norm10 (x ++ List.replicate n 0#8) = norm10 x := by
  rw [hn, ← norm10_of_lt hx, norm10_norm10]

theorem norm10_take {x : ByteSeq} (h : 10 ≤ x.length) : norm10 (x.take 10) = norm10 x := by
  rw [← norm10_of_le h, norm10_norm10]

/-- TRIVIUM_XOR reads its key and its IV through `norm10` only. -/
theorem triviumXor_congr {key key' iv iv' : ByteSeq} (data : ByteSeq) (token : Option Token)
    (hk : norm10 key = norm10 key') (hv : norm10 iv = norm10 iv') :
    triviumXor key iv data token = triviumXor key' iv' data token := by
  simp only [triviumXor, newInstance_congr _ _ hk hv]

/-- Settles O43: in each clause the two keys have one normalised form, and so have the two IVs. -/
theorem paddedAndTruncatedKeysAreTheSameKey : Obligations.PaddedAndTruncatedKeysAreTheSameKey := by
  intro key iv data token
  have hkey := (norm10_norm10 key).symm
  have hiv := (norm10_norm10 iv).symm
  refine ⟨fun o p => newInstance_congr o p hkey hiv, triviumXor_congr data token hkey hiv, fun hk hv => ?_,
    fun hk => ?_, fun hv => ?_⟩
  · exact triviumXor_congr data token (norm10_append_zeros (by omega) (by omega)).symm
      (norm10_append_zeros (by omega) (by omega)).symm
  · exact triviumXor_congr data token (norm10_take hk.le).symm rfl
  · exact triviumXor_congr data token rfl (norm10_take hv.le).symm

end Sys2Proof.Proofs
end

section
/-! PROOFS. The decoder and the encoder (30_encoding.md): the fields of a command word (R41, R50), and that decoder and
encoder agree (R42, R54, O3 to O6). -/

namespace Sys2Proof.Proofs

open Sys2Proof.Machine

/-! ### The fields of a command word -/

@[simp] theorem orderOfLo_loOfOrder (o : BitOrder) : orderOfLo (loOfOrder o) = o := by
  cases o with
  | msbFirst => rfl
  | lsbFirst => rfl

section Fields
variable (po lo : BitVec 1) (op : BitVec 3)

@[simp] theorem extractLsb'_zeroField : (commandWord po lo op).extractLsb' 5 3 = 0#3 := by
  revert po lo op; decide

@[simp] theorem extractLsb'_packField : (commandWord po lo op).extractLsb' 4 1 = po := by
  revert po lo op; decide

@[simp] theorem extractLsb'_loadField : (commandWord po lo op).extractLsb' 3 1 = lo := by
  revert po lo op; decide

@[simp] theorem extractLsb'_opField : (commandWord po lo op).extractLsb' 0 3 = op := by
  revert po lo op; decide

end Fields

/-- A field of a word, as the number R50 speaks of. -/
theorem extractLsb'_eq_ofNat_iff (w : Byte) (start : Nat) {len n : Nat} (h : n < 2 ^ len) :
    w.extractLsb' start len = BitVec.ofNat len n ↔ w.toNat / 2 ^ start % 2 ^ len = n := by
  rw [← BitVec.toNat_inj, BitVec.extractLsb'_toNat, BitVec.toNat_ofNat, Nat.mod_eq_of_lt h,
    Nat.shiftRight_eq_div_pow]

/-- The four conditions of R50 on the fields the decoder reads. -/
theorem legal_iff_fields (w : Byte) : CommandWord.legal w = true ↔
    w.extractLsb' 5 3 = 0#3 ∧ w.extractLsb' 4 1 = 0#1 ∧
      (w.extractLsb' 0 3 = 0#3 ∨ w.extractLsb' 0 3 = 1#3 ∨
        w.extractLsb' 3 1 = 0#1 ∧ (w.extractLsb' 0 3 = 2#3 ∨ w.extractLsb' 0 3 = 3#3 ∨ w.extractLsb' 0 3 = 4#3)) := by
  have hw : w.toNat < 256 := w.isLt
  have op_iff {n : Nat} (hn : n < 8) : w.extractLsb' 0 3 = BitVec.ofNat 3 n ↔ w.toNat / 2 ^ 0 % 2 ^ 3 = n :=
    extractLsb'_eq_ofNat_iff w 0 hn
  rw [extractLsb'_eq_ofNat_iff w 5 (by decide), extractLsb'_eq_ofNat_iff w 4 (by decide),
    extractLsb'_eq_ofNat_iff w 3 (by decide), op_iff (by decide), op_iff (by decide), op_iff (by decide),
    op_iff (by decide), op_iff (by decide)]
  simp only [CommandWord.legal, CommandWord.zeroFieldOk, CommandWord.packFieldOk, CommandWord.opFieldOk,
    CommandWord.loadFieldOk, Bool.and_eq_true, Bool.or_eq_true, beq_iff_eq, decide_eq_true_iff]
  omega

/-- The table of R42: the words that no condition of R50 excludes. -/
theorem legal_iff_mem_table (w : Byte) : CommandWord.legal w = true ↔
    w ∈ [0x00#8, 0x08#8, 0x01#8, 0x09#8, 0x02#8, 0x03#8, 0x04#8] := by
  have hw : w.toNat < 256 := w.isLt
  simp only [CommandWord.legal, CommandWord.zeroFieldOk, CommandWord.packFieldOk, CommandWord.opFieldOk,
    CommandWord.loadFieldOk, Bool.and_eq_true, Bool.or_eq_true, beq_iff_eq, decide_eq_true_iff, List.mem_cons,
    List.not_mem_nil, or_false, ← BitVec.toNat_inj, BitVec.toNat_ofNat]
  omega

/-! ### Decoding -/

/-- Settles O3: the decoder, run on each of the seven words. -/
theorem legalWordsDecodeToTheirOperations : Obligations.LegalWordsDecodeToTheirOperations := by
  intro c
  refine ⟨fun h => ?_, fun h => ?_, fun h => ?_, fun h => ?_, fun h => ?_, fun h => ?_, fun h => ?_⟩
  all_goals simp [decode, h, orderOfLo]

theorem decode_of_not_legal {c : Command} (h : CommandWord.legal c.cw = false) : decode c = .error ⟨c.cw⟩ := by
  rw [← Bool.not_eq_true, legal_iff_fields] at h
  simp only [decode]
  grind

theorem decode_of_legal {c : Command} (h : CommandWord.legal c.cw = true) : ∃ i, decode c = .ok i := by
  obtain ⟨h00, h08, h01, h09, h02, h03, h04⟩ := legalWordsDecodeToTheirOperations c
  simp only [legal_iff_mem_table, List.mem_cons, List.not_mem_nil, or_false] at h
  rcases h with h | h | h | h | h | h | h
  · exact ⟨_, h00 h⟩
  · exact ⟨_, h08 h⟩
  · exact ⟨_, h01 h⟩
  · exact ⟨_, h09 h⟩
  · exact ⟨_, h02 h⟩
  · exact ⟨_, h03 h⟩
  · exact ⟨_, h04 h⟩

theorem decode_ok_iff_legal (c : Command) : (∃ i, decode c = .ok i) ↔ CommandWord.legal c.cw = true := by
  refine ⟨fun ⟨i, hi⟩ => ?_, decode_of_legal⟩
  by_contra h
  simp [decode_of_not_legal (Bool.not_eq_true _ ▸ h)] at hi

theorem decode_error_iff_not_legal (c : Command) : decode c = .error ⟨c.cw⟩ ↔ CommandWord.legal c.cw = false := by
  refine ⟨fun he => ?_, decode_of_not_legal⟩
  by_contra h
  obtain ⟨i, hi⟩ := decode_of_legal (Bool.not_eq_false _ ▸ h)
  simp [hi] at he

/-- Settles O6. -/
theorem decoderRefusesExactlyTheIllegalWords : Obligations.DecoderRefusesExactlyTheIllegalWords :=
  ⟨decode_ok_iff_legal, decode_error_iff_not_legal, legal_iff_mem_table⟩

/-! ### Encoding -/

theorem decode_encode (i : Instr) : decode (encode i) = .ok i := by
  cases i with
  | getbit bytes bitIndex o => simp [decode, encode, Command.ofWord]
  | init key iv o p => cases p; simp [decode, encode, Command.ofWord, poOfOrder]
  | advance => simp [decode, encode, Command.ofWord]
  | ksbyte => simp [decode, encode, Command.ofWord]
  | xorbyte d => simp [decode, encode, Command.ofWord]

theorem wf_eq_true (i : Instr) : i.wf = true := by
  cases i with
  | getbit | init | advance | ksbyte | xorbyte => rfl

/-- Settles O4: the decoder reads back each field that `encode` put into the word. -/
theorem decodeOfEncodeIsTheInstruction : Obligations.DecodeOfEncodeIsTheInstruction :=
  fun i => ⟨wf_eq_true i, decode_encode i⟩

/-- Settles O5: what decodes has one of the seven words, and `encode` writes that word again. -/
theorem encodeOfDecodeIsTheCommand : Obligations.EncodeOfDecodeIsTheCommand := by
  intro c i hi
  obtain ⟨h00, h08, h01, h09, h02, h03, h04⟩ := legalWordsDecodeToTheirOperations c
  have legal := (decode_ok_iff_legal c).mp ⟨i, hi⟩
  simp only [legal_iff_mem_table, List.mem_cons, List.not_mem_nil, or_false] at legal
  rcases legal with h | h | h | h | h | h | h
  · cases (h00 h).symm.trans hi; rw [h]; rfl
  · cases (h08 h).symm.trans hi; rw [h]; rfl
  · cases (h01 h).symm.trans hi; rw [h]; rfl
  · cases (h09 h).symm.trans hi; rw [h]; rfl
  · cases (h02 h).symm.trans hi; rw [h]; rfl
  · cases (h03 h).symm.trans hi; rw [h]; rfl
  · cases (h04 h).symm.trans hi; rw [h]; rfl

end Sys2Proof.Proofs
end

section
/-! PROOFS. The bit accessor (40_bit_accessor.md R55, R57, O13, O14; 20_memory.md R31, O15). -/

namespace Sys2Proof.Proofs

open Sys2Proof.Machine

theorem getBit_of_getElem?_none {bytes : ByteSeq} {i : Nat} (h : bytes[i / 8]? = none) (o : BitOrder) :
    getBit bytes i o = false := by
  simp only [getBit, h]

@[simp] theorem bitInByte_zero (p : Nat) (o : BitOrder) : bitInByte 0#8 p o = false := by
  cases o with
  | msbFirst => exact BitVec.getLsbD_zero
  | lsbFirst => exact BitVec.getLsbD_zero

theorem getLsbD_eq_decide_div (b : Byte) (j : Nat) : b.getLsbD j = decide (b.toNat / 2 ^ j % 2 = 1) :=
  Nat.testBit_eq_decide_div_mod_eq

/-- Settles O13: the bit is read from the addressed byte, if there is one. -/
theorem getbitReturnsTheAddressedBit : Obligations.GetbitReturnsTheAddressedBit := by
  intro bytes i order s
  refine ⟨getBit bytes i order, rfl, fun h => getBit_of_getElem?_none (List.getElem?_eq_none h) order, fun b hb => ?_⟩
  rw [getBit_of_getElem? hb]
  cases order with
  | msbFirst => exact getLsbD_eq_decide_div b _
  | lsbFirst => exact getLsbD_eq_decide_div b _

theorem getLsbD_rev8 (b : Byte) {j : Nat} (h : j < 8) : (rev8 b).getLsbD j = b.getLsbD (7 - j) := by
  have read : (rev8 b).getLsbD j = (decide (j < 8) && b.getLsbD (7 - j)) := cell_ofCells 8 _ j
  rw [read, decide_eq_true h, Bool.true_and]

theorem bitInByte_rev8 (b : Byte) {p : Nat} (h : p < 8) : bitInByte (rev8 b) p .msbFirst = bitInByte b p .lsbFirst := by
  rw [bitInByte, getLsbD_rev8 b (by omega), bitInByte]
  congr 1
  omega

/-- R57: the two orders differ by the reversal of every byte. -/
theorem getBit_lsbFirst_eq (bytes : ByteSeq) (i : Nat) :
    getBit bytes i .lsbFirst = getBit (bytes.map rev8) i .msbFirst := by
  cases h : bytes[i / 8]? with
  | none => rw [getBit_of_getElem?_none h, getBit_of_getElem?_none (by simp [h])]
  | some b =>
    have hrev : (bytes.map rev8)[i / 8]? = some (rev8 b) := by simp [h]
    rw [getBit_of_getElem? h, getBit_of_getElem? hrev, bitInByte_rev8 b (Nat.mod_lt i (by decide))]

/-- Settles O14. -/
theorem lsbFirstIsMsbFirstOfReversedBytes : Obligations.LsbFirstIsMsbFirstOfReversedBytes :=
  ⟨getBit_lsbFirst_eq, fun b _ hj => getLsbD_rev8 b hj⟩

/-- Settles O15: a byte within the sequence is the same byte; past its end one side reads a padding byte 0, the other is
out of range. -/
theorem zeroPaddingAgreesWithOutOfRangeReads : Obligations.ZeroPaddingAgreesWithOutOfRangeReads := by
  intro x i order hi
  rcases Nat.lt_or_ge (i / 8) (min x.length 10) with hin | hout
  · have same : (norm10 x)[i / 8]? = (x.take (min x.length 10))[i / 8]? := by
      rw [norm10_getElem?_of_lt_length hin, List.getElem?_take_of_lt hin]
    simp only [getBit, same]
  · have padding := norm10_getElem?_of_length_le hout (by omega)
    have absent : (x.take (min x.length 10))[i / 8]? = none := by simp; omega
    rw [getBit_of_getElem? padding, getBit_of_getElem?_none absent, bitInByte_zero]

end Sys2Proof.Proofs
end

section
/-! PROOFS. The cipher (41_nfsr_state_machine.md): ADVANCE and its inverse (R66, R70, R71, O21 to O23), the loaded state
and INIT (R60, R63 to R65, O18 to O20), and the registers after n advances (R72). -/

namespace Sys2Proof.Proofs

open Sys2Proof.Machine Sys2Proof.Safety

/-! ### One advance -/

theorem regs_ext {q r : Regs} (ha : q.a = r.a) (hb : q.b = r.b) (hc : q.c = r.c) : q = r := by
  cases q
  cases r
  exact (Regs.mk.injEq ..).mpr ⟨ha, hb, hc⟩

theorem cell_shiftConcat_pos {n : Nat} (x : BitVec n) (t : Bool) {i : Nat} (h1 : 1 ≤ i) (hn : i < n) :
    cell (x.shiftConcat t) i = cell x (i - 1) := by
  rw [cell_shiftConcat, decide_eq_true hn, Bool.true_and, if_neg (Nat.one_le_iff_ne_zero.mp h1)]

theorem cell_shiftConcat_zero {n : Nat} (x : BitVec (n + 1)) (t : Bool) : cell (x.shiftConcat t) 0 = t := by
  simp [cell_shiftConcat]

/-- Shifting a register back and putting its old last cell into the place left free gives the register. -/
theorem unshift_shiftConcat {n : Nat} (x : BitVec (n + 1)) (t : Bool) {last : Bool} (h : last = cell x n) :
    (ofCells (n + 1) fun i => if i < n then cell (x.shiftConcat t) (i + 1) else last) = x := by
  refine eq_of_cell_eq fun i hi => ?_
  rw [cell_ofCells, decide_eq_true hi, Bool.true_and]
  split
  · next hlt => exact cell_shiftConcat_pos x t (Nat.succ_pos i) (Nat.succ_lt_succ hlt)
  · next hge =>
    obtain rfl : i = n := by omega
    exact h

/-- Shifting on again and inserting the old cell 0 gives the register, whatever the last cell was. -/
theorem shiftConcat_unshift {n : Nat} (x : BitVec (n + 1)) (last : Bool) {t : Bool} (h : t = cell x 0) :
    (ofCells (n + 1) fun i => if i < n then cell x (i + 1) else last).shiftConcat t = x := by
  refine eq_of_cell_eq fun i hi => ?_
  cases i with
  | zero => rw [cell_shiftConcat_zero, h]
  | succ i =>
    have hlt : i < n := Nat.lt_of_succ_lt_succ hi
    rw [cell_shiftConcat_pos _ _ (Nat.succ_pos i) hi, Nat.succ_sub_one, cell_ofCells,
      decide_eq_true (Nat.lt_of_succ_lt hi), Bool.true_and, if_pos hlt]

/-- The formulas of R71 undo an advance: of each register, the bit they put last is the one the advance dropped. -/
theorem retreat_advance (r : Regs) : retreat r.advance.2 = r := by
  obtain ⟨ha, hb, hc⟩ := advance_inserts r
  rw [retreat, ha, hb, hc, unshift_shiftConcat, unshift_shiftConcat, unshift_shiftConcat]
  all_goals grind [cell_shiftConcat]

/-- An advance undoes the formulas of R71: into each register it inserts the bit they dropped. -/
theorem advance_retreat (r : Regs) : (retreat r).advance.2 = r := by
  obtain ⟨ha, hb, hc⟩ := advance_inserts (retreat r)
  have ea := ha.trans (shiftConcat_unshift r.a _ (by simp only [retreat, cell_ofCells]; grind))
  have eb := hb.trans (shiftConcat_unshift r.b _ (by simp only [retreat, cell_ofCells]; grind))
  have ec := hc.trans (shiftConcat_unshift r.c _ (by simp only [retreat, cell_ofCells]; grind))
  exact regs_ext ea eb ec

/-- Settles O22. -/
theorem advanceIsReversible : Obligations.AdvanceIsReversible :=
  fun r => ⟨retreat_advance r, advance_retreat r⟩

theorem advance_injective : Function.Injective fun r : Regs => r.advance.2 :=
  Function.LeftInverse.injective retreat_advance

/-- Settles O23. -/
theorem allZeroAndAllOneRegisters : Obligations.AllZeroAndAllOneRegisters := by
  constructor
  · decide +kernel
  · decide +kernel

/-- Settles O21. -/
theorem advanceShiftsAndInsertsTheFeedbackBits : Obligations.AdvanceShiftsAndInsertsTheFeedbackBits := by
  intro s x hx
  obtain ⟨ha, hb, hc⟩ := advance_inserts x.regs
  have output : x.advance.1 = (cell x.regs.a 65 ^^ cell x.regs.a 92 ^^ cell x.regs.b 68 ^^ cell x.regs.b 83 ^^
      cell x.regs.c 65 ^^ cell x.regs.c 110) := by
    simp [Instance.advance, Regs.advance]
  refine ⟨_, x.regs.advance.2, onInstance_some _ hx, instanceAt_putInstance_same _ _ _,
    fun j hj => instanceAt_putInstance_other _ _ hj, by rw [← output]; rfl, ?_, fun i h1 h2 => ?_, ?_,
    fun i h1 h2 => ?_, ?_, fun i h1 h2 => ?_⟩
  · rw [ha, cell_shiftConcat_zero]
  · rw [ha, cell_shiftConcat_pos _ _ h1 (by omega)]
  · rw [hb, cell_shiftConcat_zero]
  · rw [hb, cell_shiftConcat_pos _ _ h1 (by omega)]
  · rw [hc, cell_shiftConcat_zero]
  · rw [hc, cell_shiftConcat_pos _ _ h1 (by omega)]

/-! ### The registers after n advances -/

theorem stateAfter_succ (r : Regs) (n : Nat) : stateAfter r (n + 1) = stateAfter r.advance.2 n := rfl

theorem stateAfter_add (r : Regs) (m n : Nat) : stateAfter r (m + n) = stateAfter (stateAfter r m) n := by
  rw [stateAfter, Nat.add_comm, Function.iterate_add_apply]; rfl

theorem discard_eq_stateAfter (n : Nat) (r : Regs) : Regs.discard n r = stateAfter r n := by
  induction n generalizing r with
  | zero => rfl
  | succ n ih => rw [Regs.discard, ih, stateAfter_succ]

theorem stateAfter_injective (n : Nat) : Function.Injective fun r => stateAfter r n :=
  advance_injective.iterate n

/-- Bit j + 1 of the keystream that starts m advances later. -/
theorem keystreamBit_stateAfter (r : Regs) (m j : Nat) :
    keystreamBit (stateAfter r m) (j + 1) = keystreamBit r (m + j + 1) := by
  rw [keystreamBit, keystreamBit, Nat.add_sub_cancel, Nat.add_sub_cancel, stateAfter_add]

/-! ### The all-zero registers (R70) -/

theorem allZero_iff (r : Regs) : allZero r = true ↔ r = ⟨0, 0, 0⟩ := by
  cases r
  simp [allZero, and_assoc]

/-- Only the all-zero registers advance to the all-zero registers, since an advance is injective and fixes them. -/
theorem allZero_advance (r : Regs) : allZero r.advance.2 = allZero r := by
  rw [Bool.eq_iff_iff, allZero_iff, allZero_iff]
  have fixed : (⟨0, 0, 0⟩ : Regs).advance.2 = ⟨0, 0, 0⟩ := congrArg Prod.snd allZeroAndAllOneRegisters.1
  exact ⟨fun h => advance_injective (h.trans fixed.symm), fun h => h ▸ fixed⟩

theorem allZero_stateAfter (r : Regs) (n : Nat) : allZero (stateAfter r n) = allZero r := by
  induction n generalizing r with
  | zero => rfl
  | succ n ih => rw [stateAfter_succ, ih, allZero_advance]

/-! ### INIT -/

theorem cell_loadRegs_c (K V : ByteSeq) (o : BitOrder) (i : Nat) :
    cell (loadRegs K V o).c i = (decide (i < 111) && decide (108 ≤ i)) := by
  rw [loadRegs, cell_ofCells]

theorem allZero_loadRegs (K V : ByteSeq) (o : BitOrder) : allZero (loadRegs K V o) = false := by
  rw [← Bool.not_eq_true, allZero_iff]
  intro h
  have seeded := cell_loadRegs_c K V o 108
  rw [h] at seeded
  cases seeded

/-- Settles O18. -/
theorem loadedStateSeedsRegisterC : Obligations.LoadedStateSeedsRegisterC := by
  intro K V o
  refine ⟨fun i hi => ?_, cell_loadRegs_c K V o 108, cell_loadRegs_c K V o 109, cell_loadRegs_c K V o 110,
    allZero_loadRegs K V o⟩
  simp [cell_loadRegs_c]
  omega

theorem newInstance_eq (key iv : ByteSeq) (o : BitOrder) (p : PackOrder) :
    newInstance key iv o p =
      { regs := stateAfter (loadRegs (norm10 key) (norm10 iv) o) 1152, loadOrder := o, packOrder := p } := by
  simp only [newInstance, discard_eq_stateAfter]

/-- Settles O19. -/
theorem initConstructsTheWarmedUpInstance : Obligations.InitConstructsTheWarmedUpInstance := by
  intro key iv o p s
  have written := instanceAt_putInstance_same s.instances s.host.port (newInstance key iv o p)
  refine ⟨_, rfl, ?_, congrArg Option.isSome written, fun j hj => instanceAt_putInstance_other _ _ hj, rfl⟩
  exact written.trans (congrArg some (newInstance_eq key iv o p))

/-- Settles O20. -/
theorem initDependsOnItsOperandsOnly : Obligations.InitDependsOnItsOperandsOnly := by
  intro key key' iv iv' o p s s' hk hv
  obtain ⟨t, ht, hy⟩ := exec_init_instanceAt key iv o p s
  obtain ⟨t', ht', hy'⟩ := exec_init_instanceAt key' iv' o p s'
  exact ⟨t, t', ht, ht', by rw [hy, hy', newInstance_congr o p hk hv]⟩

/-! ### The two bit orders (42_keystream_packer.md R84) -/

theorem rev8_eq_self_iff (b : Byte) :
    rev8 b = b ↔ ∀ p, p < 8 → bitInByte b p .msbFirst = bitInByte b p .lsbFirst := by
  constructor
  · intro h p hp
    rw [← bitInByte_rev8 b hp, h]
  · intro h
    refine BitVec.eq_of_getLsbD_eq fun j hj => ?_
    rw [getLsbD_rev8 b hj]
    exact h j hj

/-- The two orders read the same bits exactly when every byte is its own reversal. -/
theorem getBit_orders_agree_iff (bytes : ByteSeq) :
    (∀ i, i < 8 * bytes.length → getBit bytes i .msbFirst = getBit bytes i .lsbFirst) ↔ ∀ b ∈ bytes, rev8 b = b := by
  constructor
  · intro h b hb
    obtain ⟨n, hn, rfl⟩ := List.getElem_of_mem hb
    refine (rev8_eq_self_iff _).mpr fun p hp => ?_
    have hdiv : (8 * n + p) / 8 = n := by omega
    have hmod : (8 * n + p) % 8 = p := by omega
    have hbyte : bytes[(8 * n + p) / 8]? = some bytes[n] := by rw [hdiv]; exact List.getElem?_eq_getElem hn
    have := h (8 * n + p) (by omega)
    rwa [getBit_of_getElem? hbyte, getBit_of_getElem? hbyte, hmod] at this
  · intro h i hi
    have hbyte : bytes[i / 8]? = some bytes[i / 8] := List.getElem?_eq_getElem (by omega)
    rw [getBit_of_getElem? hbyte, getBit_of_getElem? hbyte]
    exact (rev8_eq_self_iff _).mp (h _ (List.getElem_mem _)) _ (Nat.mod_lt i (by decide))

theorem and_decide_congr {P : Prop} [Decidable P] {x y : Bool} (h : P → x = y) :
    (decide P && x) = (decide P && y) := by
  by_cases hP : P
  · rw [h hP]
  · simp [hP]

/-- The loaded registers hold the bits of K and V and nothing else of the order. -/
theorem loadRegs_eq_iff (K V : ByteSeq) (o o' : BitOrder) : loadRegs K V o = loadRegs K V o' ↔
    (∀ i, i < 80 → getBit K i o = getBit K i o') ∧ ∀ i, i < 80 → getBit V i o = getBit V i o' := by
  constructor
  · intro h
    refine ⟨fun i hi => ?_, fun i hi => ?_⟩
    · simpa [cell_loadRegs_a, hi] using congrArg (fun r => cell r.a i) h
    · simpa [cell_loadRegs_b, hi] using congrArg (fun r => cell r.b i) h
  · rintro ⟨hK, hV⟩
    refine regs_ext (eq_of_cell_eq fun i _ => ?_) (eq_of_cell_eq fun i _ => ?_) rfl
    · rw [cell_loadRegs_a, cell_loadRegs_a]
      exact and_decide_congr (hK i)
    · rw [cell_loadRegs_b, cell_loadRegs_b]
      exact and_decide_congr (hV i)

/-- Settles O44: the orders are told apart by the loaded bits, and the warm-up is injective. -/
theorem ordersAgreeExactlyOnPalindromicBytes : Obligations.OrdersAgreeExactlyOnPalindromicBytes := by
  intro key iv p
  have loaded : loadRegs (norm10 key) (norm10 iv) .msbFirst = loadRegs (norm10 key) (norm10 iv) .lsbFirst ↔
      ∀ b ∈ norm10 key ++ norm10 iv, rev8 b = b := by
    rw [loadRegs_eq_iff, List.forall_mem_append, ← getBit_orders_agree_iff, ← getBit_orders_agree_iff, norm10_length,
      norm10_length]
  refine ⟨loaded, Iff.trans ?_ loaded⟩
  rw [newInstance_regs, newInstance_regs, discard_eq_stateAfter, discard_eq_stateAfter]
  exact (stateAfter_injective _).eq_iff

end Sys2Proof.Proofs
end

section
/-! PROOFS. The keystream packer (42_keystream_packer.md): KSBYTE and XORBYTE on a running instance (R75, R77, O25, O26,
O28), and the function XORBYTES (R78, O38, O39). -/

namespace Sys2Proof.Proofs

open Sys2Proof.Machine Sys2Proof.Safety

/-! ### The keystream byte -/

/-- One bit more shifts the others up. -/
theorem packLsbFirst_cons (z : Bool) (zs : List Bool) :
    packLsbFirst (z :: zs) = (packLsbFirst zs).shiftConcat z := by
  apply BitVec.eq_of_toNat_eq
  have first : (if z then 1#8 else 0#8).toNat = z.toNat := by cases z <;> rfl
  rw [packLsbFirst, BitVec.toNat_add, BitVec.toNat_mul, first, BitVec.toNat_shiftConcat, Nat.shiftLeft_eq]
  simp; omega

theorem getLsbD_packLsbFirst (zs : List Bool) {j : Nat} (h : j < 8) :
    (packLsbFirst zs).getLsbD j = zs[j]?.getD false := by
  induction zs generalizing j with
  | nil => simp [packLsbFirst]
  | cons z zs ih =>
    rw [packLsbFirst_cons, BitVec.getLsbD_shiftConcat, decide_eq_true h, Bool.true_and]
    cases j with
    | zero => rfl
    | succ j => exact ih (Nat.lt_of_succ_lt h)

/-- The output bits of n advances, in the numbering of R72. -/
theorem produce_bits (n : Nat) (r : Regs) : (r.produce n).1 = (List.range n).map fun j => keystreamBit r (j + 1) := by
  induction n generalizing r with
  | zero => rfl
  | succ n ih =>
    rw [Regs.produce, ih, List.range_succ_eq_map, List.map_cons, List.map_map]
    rfl

theorem produce_eq_stateAfter (n : Nat) (r : Regs) : (r.produce n).2 = stateAfter r n :=
  (Regs.produce_regs n r).trans (discard_eq_stateAfter n r)

/-- KSBYTE's byte holds keystream bits 1 to 8, the first lowest (R75, R76). -/
theorem ksByte_getLsbD (x : Instance) {j : Nat} (h : j < 8) : x.ksByte.1.getLsbD j = keystreamBit x.regs (j + 1) := by
  rw [Instance.ksByte, packBits_eq_packLsbFirst, getLsbD_packLsbFirst _ h, produce_bits]
  simp [h]

theorem ksByte_instance (x : Instance) : x.ksByte.2 = { x with regs := stateAfter x.regs 8 } := by
  rw [Instance.ksByte, produce_eq_stateAfter]

/-- The data byte is XORed in bit by bit, and the instance goes on as after KSBYTE (R87). -/
theorem xorByte_getLsbD (x : Instance) (d : Byte) {j : Nat} (h : j < 8) :
    (x.xorByte d).1.getLsbD j = (d.getLsbD j ^^ keystreamBit x.regs (j + 1)) := by
  rw [Instance.xorByte, BitVec.getLsbD_xor, ksByte_getLsbD x h]

theorem xorByte_instance (x : Instance) (d : Byte) : (x.xorByte d).2 = { x with regs := stateAfter x.regs 8 } :=
  ksByte_instance x

theorem exec_ksbyte_running {s : State} {x : Instance} (hx : instanceAt s.instances s.host.port = some x) :
    exec .ksbyte s = .next ((s.setCurrent x.ksByte.2).reply (.ok (.byte x.ksByte.1))) := by
  rw [exec, execKsbyte, onInstance_some _ hx]

theorem exec_xorbyte_running {s : State} {x : Instance} (d : Byte)
    (hx : instanceAt s.instances s.host.port = some x) :
    exec (.xorbyte d) s = .next ((s.setCurrent (x.xorByte d).2).reply (.ok (.byte (x.xorByte d).1))) := by
  rw [exec, execXorbyte, onInstance_some _ hx]

/-- Settles O25. -/
theorem ksbytePacksEightKeystreamBits : Obligations.KsbytePacksEightKeystreamBits := by
  intro s x hx
  refine ⟨_, x.ksByte.1, exec_ksbyte_running hx, ?_, fun j hj => instanceAt_putInstance_other _ _ hj, rfl,
    fun j hj => ksByte_getLsbD x hj⟩
  exact (instanceAt_putInstance_same _ _ _).trans (congrArg some (ksByte_instance x))

/-- Settles O26. -/
theorem xorbyteXorsTheKeystreamByte : Obligations.XorbyteXorsTheKeystreamByte := by
  intro s x d hx
  refine ⟨_, (x.xorByte d).1, exec_xorbyte_running d hx, ?_, fun j hj => instanceAt_putInstance_other _ _ hj, rfl,
    fun j hj => xorByte_getLsbD x d hj⟩
  exact (instanceAt_putInstance_same _ _ _).trans (congrArg some (xorByte_instance x d))

theorem xorByte_zero (x : Instance) : x.xorByte 0#8 = x.ksByte := by
  rw [Instance.xorByte, BitVec.zero_xor]

theorem xorByte_allOnes (x : Instance) : x.xorByte 0xFF#8 = (~~~x.ksByte.1, x.ksByte.2) := by
  have ones : (0xFF#8 : Byte) = BitVec.allOnes 8 := rfl
  rw [Instance.xorByte, ones, BitVec.allOnes_xor]

/-- Settles O28. -/
theorem xorbyteOfZeroIsKsbyte : Obligations.XorbyteOfZeroIsKsbyte := by
  intro s
  refine ⟨by simp only [exec, execXorbyte, execKsbyte, xorByte_zero], fun x hx => ?_⟩
  have complement : exec (.xorbyte 0xFF#8) s =
      .next ((s.setCurrent x.ksByte.2).reply (.ok (.byte (~~~x.ksByte.1)))) := by
    rw [exec_xorbyte_running _ hx, xorByte_allOnes]
  exact ⟨_, _, x.ksByte.1, exec_ksbyte_running hx, complement, by simp only [State.reply_instances], rfl, rfl⟩

/-! ### XORBYTES -/

theorem xorBytes_instance (x : Instance) (data : ByteSeq) :
    (x.xorBytes data).2 = { x with regs := stateAfter x.regs (8 * data.length) } := by
  induction data generalizing x with
  | nil => rfl
  | cons d ds ih =>
    rw [xorBytes_cons, ih, ksByte_instance, ← stateAfter_add, List.length_cons, Nat.mul_succ, Nat.add_comm 8]

/-- Byte i of the result meets the eight keystream bits from 8i + 1 on. -/
theorem xorBytes_getLsbD (x : Instance) {data : ByteSeq} {i j : Nat} {d : Byte} (hd : data[i]? = some d) (hj : j < 8) :
    ∃ b : Byte, (x.xorBytes data).1[i]? = some b ∧
      b.getLsbD j = (d.getLsbD j ^^ keystreamBit x.regs (8 * i + j + 1)) := by
  induction data generalizing x i with
  | nil => simp at hd
  | cons e es ih =>
    cases i with
    | zero =>
      obtain rfl : e = d := by simpa using hd
      exact ⟨_, rfl, by simpa using xorByte_getLsbD x e hj⟩
    | succ i =>
      obtain ⟨b, hb, hbit⟩ := ih x.ksByte.2 hd
      refine ⟨b, hb, hbit.trans ?_⟩
      have later : 8 + (8 * i + j) + 1 = 8 * (i + 1) + j + 1 := by omega
      rw [ksByte_instance, keystreamBit_stateAfter, later]

/-- Settles O38. -/
theorem xorbytesUsesTheKeystreamInOrder : Obligations.XorbytesUsesTheKeystreamInOrder := fun x data =>
  ⟨xorBytes_instance x data, xorBytes_length x data, fun _ _ _ hd hj => xorBytes_getLsbD x hd hj⟩

theorem xorBytes_append (x : Instance) (d1 d2 : ByteSeq) :
    (x.xorBytes (d1 ++ d2)).1 = (x.xorBytes d1).1 ++ ((x.xorBytes d1).2.xorBytes d2).1 ∧
      (x.xorBytes (d1 ++ d2)).2 = ((x.xorBytes d1).2.xorBytes d2).2 := by
  induction d1 generalizing x with
  | nil => exact ⟨rfl, rfl⟩
  | cons d ds ih =>
    obtain ⟨bytes, last⟩ := ih x.ksByte.2
    exact ⟨congrArg ((d ^^^ x.ksByte.1) :: ·) bytes, last⟩

/-- Settles O39. -/
theorem xorbytesSplitsAndRefusesAsAWhole : Obligations.XorbytesSplitsAndRefusesAsAWhole :=
  ⟨xorBytes_append, fun _ => rfl, fun _ _ => rfl, fun _ => rfl, fun _ => rfl⟩

end Sys2Proof.Proofs
end

section
/-! PROOFS. Steps (60_exceptions.md, 70_reset_and_hazards.md): the effect of every event as a function of the instance
it is for, and what follows for resets, refusals, RDY, the frames and the invariants (O1, O2, O7 to O12, O30, O31, O34
to O36, O49, O50). -/

namespace Sys2Proof.Proofs

open Sys2Proof.Machine Sys2Proof.Safety

/-! ### The effect of an event -/

/-- What an operation returns, and leaves, where its instance runs. -/
def opOn : Instr → Instance → Result × Instance
  | .getbit bytes n o, x => (.bit (getBit bytes n o), x)
  | .init key iv o p, _ => (.nothing, newInstance key iv o p)
  | .advance, x => (.bit x.advance.1, x.advance.2)
  | .ksbyte, x => (.byte x.ksByte.1, x.ksByte.2)
  | .xorbyte d, x => (.byte (x.xorByte d).1, (x.xorByte d).2)

/-- The effect of an operation that needs RDY = 1. -/
def onRunning (f : Instance → Result × Instance) : Option Instance → Effect
  | none => .reply (.refused .notInitialised)
  | some x => .write (f x).2 (.ok (f x).1)

/-- The effect of an operation, from the instance it is for. -/
def opEffect (i : Instr) (c : Option Instance) : Effect :=
  match i with
  | .getbit bytes n o => .reply (.ok (.bit (getBit bytes n o)))
  | .init key iv o p => .write (newInstance key iv o p) (.ok .nothing)
  | .advance | .ksbyte | .xorbyte _ => onRunning (opOn i) c

/-- The effect of an event, from the instance it is for. -/
def eventEffect (e : HostEvent) (c : Option Instance) : Effect :=
  match e with
  | .reset => .reset
  | .command w =>
      match decode w with
      | .error r => .reply (.refused (.illegalCommand r.word))
      | .ok i => opEffect i c

theorem onInstance_eq_effect (f : Instance → Result × Instance) (s : State) :
    onInstance s f = .next ((onRunning f s.current).apply s) := by
  cases h : s.current with
  | none => exact onInstance_none f h
  | some x => exact onInstance_some f h

theorem exec_eq_effect (i : Instr) (s : State) : exec i s = .next ((opEffect i s.current).apply s) := by
  cases i with
  | getbit bytes n o => rfl
  | init key iv o p => rfl
  | advance => exact onInstance_eq_effect _ s
  | ksbyte => exact onInstance_eq_effect _ s
  | xorbyte d => exact onInstance_eq_effect _ s

theorem serveEvent_eq_effect (e : HostEvent) (s : State) :
    serveEvent exec e s = .next ((eventEffect e s.current).apply s) := by
  cases e with
  | reset => rfl
  | command c =>
    simp only [serveEvent, serveCommand, eventEffect]
    cases decode c with
    | error r => rfl
    | ok i => exact exec_eq_effect i s

/-- One step with a request pending, in one equation. -/
theorem step_eq_effect {s : State} {q : Request} {rest : List Request} (h : s.host.pending = q :: rest) :
    step s = .next ((eventEffect q.event (instanceAt s.instances q.port)).apply (served s q rest)) :=
  (step_cons h).trans (serveEvent_eq_effect q.event (served s q rest))

theorem step_of_effect {s : State} {q : Request} {rest : List Request} {e : Effect} (h : s.host.pending = q :: rest)
    (he : eventEffect q.event (instanceAt s.instances q.port) = e) : step s = .next (e.apply (served s q rest)) :=
  he ▸ step_eq_effect h

theorem eventEffect_of_decode_ok {w : Command} {i : Instr} (h : decode w = .ok i) (c : Option Instance) :
    eventEffect (.command w) c = opEffect i c := by
  simp only [eventEffect, h]

theorem eventEffect_of_decode_error {w : Command} {r : IllegalCommand} (h : decode w = .error r)
    (c : Option Instance) : eventEffect (.command w) c = .reply (.refused (.illegalCommand r.word)) := by
  simp only [eventEffect, h]

@[simp] theorem eventEffect_requestOf (k : Nat) (i : Instr) (c : Option Instance) :
    eventEffect (requestOf k i).event c = opEffect i c :=
  eventEffect_of_decode_ok (decode_encode i) c

theorem opEffect_of_needsReady {i : Instr} (h : needsReady i = true) (c : Option Instance) :
    opEffect i c = onRunning (opOn i) c := by
  cases i with
  | getbit | init => simp [needsReady] at h
  | advance | ksbyte | xorbyte => rfl

namespace Effect

@[simp] theorem apply_port (e : Effect) (s : State) : (e.apply s).host.port = s.host.port := by
  cases e with
  | reset | reply | write => rfl

@[simp] theorem apply_pending (e : Effect) (s : State) : (e.apply s).host.pending = s.host.pending := by
  cases e with
  | reset | reply | write => rfl

/-- Every effect keeps the canonical form of the list of instances. -/
theorem canonical_apply (e : Effect) {s : State} (h : canonical s.instances = true) :
    canonical (e.apply s).instances = true := by
  cases e with
  | reset => exact canonical_dropInstance h _
  | reply r => exact h
  | write y r => exact canonical_putInstance h _ y

theorem apply_instanceAt (e : Effect) (s : State) (j : Nat) :
    instanceAt (e.apply s).instances j =
      if j = s.host.port then e.instanceAfter s.current else instanceAt s.instances j := by
  split
  · next h => rw [h, apply_instanceAfter]
  · next h => exact apply_other e s h

theorem apply_rdy (e : Effect) (s : State) (k : Nat) :
    (e.apply s).rdy k = if k = s.host.port then (e.instanceAfter s.current).isSome else s.rdy k := by
  rw [State.rdy, apply_instanceAt]
  split
  · rfl
  · rfl

/-- What the host is answered. -/
def responses : Effect → List Response
  | .reset => []
  | .reply r => [r]
  | .write _ r => [r]

theorem replies_eq_map (e : Effect) (k : Nat) : e.replies k = e.responses.map (⟨k, ·⟩) := by
  cases e with
  | reset | reply | write => rfl

theorem repliesOf_apply (e : Effect) (s : State) (k : Nat) :
    repliesOf k (e.apply s) = repliesOf k s ++ if k = s.host.port then e.responses else [] := by
  split
  · next h =>
    rw [repliesOf_append k (e.apply_replies s), replies_eq_map, h]
    simp [List.filter_map, Function.comp_def]
  · next h => rw [repliesOf_apply_other e s h, List.append_nil]

end Effect

theorem instanceAfter_opEffect_running (i : Instr) (x : Instance) :
    (opEffect i (some x)).instanceAfter (some x) = some (opOn i x).2 := by
  cases i with
  | getbit | init | advance | ksbyte | xorbyte => rfl

theorem responses_opEffect_running (i : Instr) (x : Instance) :
    (opEffect i (some x)).responses = [.ok (opOn i x).1] := by
  cases i with
  | getbit | init | advance | ksbyte | xorbyte => rfl

/-! ### Reset -/

/-- Settles O1. -/
theorem resetHasNoInstance : Obligations.ResetHasNoInstance :=
  ⟨fun _ => ⟨rfl, rfl⟩, rfl, rfl⟩

/-- Settles O2. -/
theorem resetEventEndsOneInstance : Obligations.ResetEventEndsOneInstance := by
  intro s k rest h
  have gone : instanceAt (dropInstance s.instances k) k = none := instanceAt_dropInstance_same _ _
  refine ⟨_, step_cons h, ?_, gone, fun j hj => ?_, rfl, rfl⟩
  · exact congrArg Option.isSome gone
  · exact (instanceAt_dropInstance _ j k).trans (if_neg hj)

/-- Settles O35. -/
theorem invariantAtReset : Obligations.InvariantAtReset :=
  ⟨canonical_reset, fun k x h => by cases h⟩

/-- Settles O50. -/
theorem resetIsWithinTheInstances : Obligations.ResetIsWithinTheInstances :=
  ⟨fun p => ⟨fun k x h => (by cases h), fun q h => by cases h⟩, fun _ => rfl⟩

/-! ### Steps, replies and refusals -/

/-- Settles O7. -/
theorem stepRunsTheDecodedInstruction : Obligations.StepRunsTheDecodedInstruction := by
  intro s k c rest i hp hd
  simp only [step_cons hp, serveEvent, serveCommand, hd]

/-- Settles O8. -/
theorem illegalCommandIsRefusedWithItsWord : Obligations.IllegalCommandIsRefusedWithItsWord := by
  intro s k c rest hp hillegal
  exact ⟨_, step_of_effect hp (eventEffect_of_decode_error (decode_of_not_legal hillegal) _), rfl, rfl⟩

/-- An operation is refused, which writes nothing, exactly where it needs an instance that is not there. -/
theorem opEffect_cases (i : Instr) (c : Option Instance) :
    (needsReady i = true ∧ c = none ∧ opEffect i c = .reply (.refused .notInitialised)) ∨
      (needsReady i = true → c ≠ none) ∧ ∃ v, (opEffect i c).responses = [.ok v] := by
  rcases getbit_or_init_or_needsReady i with ⟨bytes, n, o, rfl⟩ | ⟨key, iv, o, p, rfl⟩ | hready
  · exact .inr ⟨fun h => (by cases h), _, rfl⟩
  · exact .inr ⟨fun h => (by cases h), _, rfl⟩
  · rw [opEffect_of_needsReady hready]
    cases c with
    | none => exact .inl ⟨hready, rfl, rfl⟩
    | some x => exact .inr ⟨fun _ => Option.some_ne_none x, _, rfl⟩

/-- Settles O9. -/
theorem notInitialisedExactlyWithoutAnInstance : Obligations.NotInitialisedExactlyWithoutAnInstance := by
  intro i s
  have rdy_eq_false : s.rdy s.host.port = false ↔ s.current = none :=
    Option.isSome_eq_false_iff.trans Option.isNone_iff_eq_none
  rw [rdy_eq_false]
  rcases opEffect_cases i s.current with ⟨hready, hc, he⟩ | ⟨hready, v, hv⟩
  · refine ⟨s.reply (.refused .notInitialised), _, ?_, rfl, by simp [hready, hc], fun _ => rfl, by simp⟩
    rw [exec_eq_effect, he]; rfl
  · refine ⟨_, .ok v, exec_eq_effect i s, ?_, by simpa using hready, by simp, by simp⟩
    rw [Effect.apply_replies, Effect.replies_eq_map, hv]; rfl

/-- Settles O10. -/
theorem everyStepAnswersANextState : Obligations.EveryStepAnswersANextState := by
  intro s
  cases hp : s.host.pending with
  | nil => exact ⟨s, step_nil hp, hp, fun _ => rfl⟩
  | cons q rest => exact ⟨_, step_eq_effect hp, Effect.apply_pending _ _, fun h => by cases h⟩

/-- A command is refused, which writes nothing, or answers a result. -/
theorem eventEffect_command_cases (w : Command) (c : Option Instance) :
    (∃ why, eventEffect (.command w) c = .reply (.refused why)) ∨
      ∃ v, (eventEffect (.command w) c).responses = [.ok v] := by
  cases h : decode w with
  | error r => exact .inl ⟨_, eventEffect_of_decode_error h c⟩
  | ok i =>
    rw [eventEffect_of_decode_ok h]
    exact (opEffect_cases i c).imp (fun ⟨_, _, he⟩ => ⟨_, he⟩) And.right

theorem eventEffect_of_refused {e : HostEvent} {c : Option Instance} {why : CommandRefusal}
    (h : (eventEffect e c).responses = [.refused why]) : eventEffect e c = .reply (.refused why) := by
  cases e with
  | reset => cases h
  | command w =>
    rcases eventEffect_command_cases w c with ⟨why', he⟩ | ⟨v, hv⟩
    · rw [he] at h ⊢; cases h; rfl
    · rw [hv] at h; cases h

theorem status_code_cases (r : Response) :
    (r.status.code = 0 ∨ r.status.code = 2 ∨ r.status.code = 3) ∧ (r.status.code = 0 ↔ ∃ v, r = .ok v) := by
  rcases r with v | w | _
  · simp [Response.status, Status.code]
  · simp [Response.status, Status.code]
  · simp [Response.status, Status.code]

theorem responses_command (w : Command) (c : Option Instance) :
    ∃ r, (eventEffect (.command w) c).responses = [r] := by
  rcases eventEffect_command_cases w c with ⟨why, he⟩ | ⟨v, hv⟩
  · exact ⟨_, congrArg Effect.responses he⟩
  · exact ⟨_, hv⟩

/-- Settles O11. -/
theorem everyCommandHasOneReply : Obligations.EveryCommandHasOneReply := by
  intro s k c rest hp
  obtain ⟨r, hr⟩ := responses_command c (instanceAt s.instances k)
  refine ⟨_, r, step_eq_effect hp, ?_, status_code_cases r⟩
  rw [Effect.apply_replies, Effect.replies_eq_map, hr]; rfl

/-- Settles O12: a refusal has left the instance alone, so the second request has the effect of the first. -/
theorem refusalLeavesNoTraceAndRepeats : Obligations.RefusalLeavesNoTraceAndRepeats := by
  intro s t q rest why hp hstep hreplies
  have refused : eventEffect q.event (instanceAt s.instances q.port) = .reply (.refused why) := by
    cases (step_eq_effect hp).symm.trans hstep
    have added := List.append_cancel_left ((Effect.apply_replies _ (served s q rest)).symm.trans hreplies)
    rw [Effect.replies_eq_map] at added
    exact eventEffect_of_refused (List.map_injective_iff.mpr (fun _ _ => by simp) added)
  cases (step_of_effect hp refused).symm.trans hstep
  exact ⟨rfl, _, step_of_effect rfl refused, rfl, rfl⟩

/-! ### Frames and RDY -/

theorem responses_opEffect (i : Instr) (c : Option Instance) : ∃ r, (opEffect i c).responses = [r] := by
  rcases opEffect_cases i c with ⟨-, -, he⟩ | ⟨-, v, hv⟩
  · exact ⟨_, congrArg Effect.responses he⟩
  · exact ⟨_, hv⟩

/-- An operation that needs RDY = 1 writes the registers of its instance and no more. -/
theorem opOn_instance {i : Instr} (h : needsReady i = true) (x : Instance) :
    (opOn i x).2 = { x with regs := stateAfter x.regs (bitsConsumed i) } := by
  cases i with
  | getbit | init => cases h
  | advance => rfl
  | ksbyte => exact ksByte_instance x
  | xorbyte d => exact xorByte_instance x d

/-- The frame of the operations that need RDY = 1 (10_state.md R23). -/
theorem ready_operation_frame {i : Instr} (h : needsReady i = true) (s : State) :
    (s.rdy s.host.port = false → ((opEffect i s.current).apply s).instances = s.instances) ∧
      ∀ x, instanceAt s.instances s.host.port = some x →
        ∃ r, instanceAt ((opEffect i s.current).apply s).instances s.host.port = some { x with regs := r } := by
  rw [opEffect_of_needsReady h]
  refine ⟨fun hrdy => ?_, fun x hx => ⟨stateAfter x.regs (bitsConsumed i), ?_⟩⟩
  · have absent : s.current = none := by simpa [State.rdy, State.current] using hrdy
    rw [absent]; rfl
  · have present : s.current = some x := hx
    rw [Effect.apply_instanceAfter, present, onRunning, Effect.instanceAfter, opOn_instance h]

/-- Settles O30. -/
theorem operationsLeaveTheRestAlone : Obligations.OperationsLeaveTheRestAlone := by
  intro i s t ht
  cases (exec_eq_effect i s).symm.trans ht
  obtain ⟨r, hr⟩ := responses_opEffect i s.current
  refine ⟨fun j hj => Effect.apply_other _ s hj, Effect.apply_port _ s, Effect.apply_pending _ s, ⟨r, ?_⟩, ?_⟩
  · rw [Effect.apply_replies, Effect.replies_eq_map, hr]; rfl
  · cases i with
    | getbit => rfl
    | init => exact congrArg Option.isSome (instanceAt_putInstance_same _ _ _)
    | advance => exact ready_operation_frame rfl s
    | ksbyte => exact ready_operation_frame rfl s
    | xorbyte d => exact ready_operation_frame rfl s

theorem isSome_onRunning (f : Instance → Result × Instance) (c : Option Instance) :
    ((onRunning f c).instanceAfter c).isSome = c.isSome := by
  cases c with
  | none => rfl
  | some x => rfl

/-- RDY of the instance served, after the event. -/
theorem isSome_instanceAfter (e : HostEvent) (c : Option Instance) :
    ((eventEffect e c).instanceAfter c).isSome = (issuesInit e || (decide (e ≠ .reset) && c.isSome)) := by
  cases e with
  | reset => rfl
  | command w =>
    cases h : decode w with
    | error r => simp [eventEffect_of_decode_error h, Effect.instanceAfter, issuesInit, h]
    | ok i =>
      rw [eventEffect_of_decode_ok h]
      cases i with
      | getbit => simp [opEffect, Effect.instanceAfter, issuesInit, h]
      | init => simp [opEffect, Effect.instanceAfter, issuesInit, h]
      | advance | ksbyte | xorbyte => simp [opEffect, isSome_onRunning, issuesInit, h]

/-- Settles O31. -/
theorem onlyInitAndResetChangeRdy : Obligations.OnlyInitAndResetChangeRdy := by
  intro s q rest hp
  refine ⟨_, step_eq_effect hp, fun k => ?_⟩
  rw [Effect.apply_rdy]
  split
  · next h => subst h; exact isSome_instanceAfter _ _
  · rfl

/-! ### The invariant (R70) -/

/-- No operation writes all-zero registers where none stood: INIT loads three ones, and an advance of registers that are
not all zero gives registers that are not. -/
theorem allZero_instanceAfter {e : HostEvent} {c : Option Instance} (hc : ∀ x, c = some x → allZero x.regs = false)
    {y : Instance} (hy : (eventEffect e c).instanceAfter c = some y) : allZero y.regs = false := by
  cases e with
  | reset => cases hy
  | command w =>
    cases h : decode w with
    | error r => rw [eventEffect_of_decode_error h] at hy; exact hc y hy
    | ok i =>
      rw [eventEffect_of_decode_ok h] at hy
      rcases getbit_or_init_or_needsReady i with ⟨bytes, n, o, rfl⟩ | ⟨key, iv, o, p, rfl⟩ | hready
      · exact hc y hy
      · obtain rfl : newInstance key iv o p = y := Option.some.inj hy
        rw [newInstance_eq, allZero_stateAfter, allZero_loadRegs]
      · rw [opEffect_of_needsReady hready] at hy
        cases c with
        | none => cases hy
        | some x =>
          obtain rfl : (opOn i x).2 = y := Option.some.inj hy
          rw [opOn_instance hready, allZero_stateAfter, hc x rfl]

/-- Settles O36. -/
theorem everyStepKeepsTheInvariant : Obligations.EveryStepKeepsTheInvariant := by
  rintro s t ⟨hcanonical, hnonzero⟩ hstep
  cases hp : s.host.pending with
  | nil => cases (step_nil hp).symm.trans hstep; exact ⟨hcanonical, hnonzero⟩
  | cons q rest =>
    cases (step_eq_effect hp).symm.trans hstep
    refine ⟨Effect.canonical_apply _ hcanonical, fun k y hy => ?_⟩
    by_cases hk : k = q.port
    · subst hk
      rw [Effect.apply_instanceAfter _ (served s q rest)] at hy
      exact allZero_instanceAfter (hnonzero q.port) hy
    · rw [Effect.apply_other _ (served s q rest) hk] at hy
      exact hnonzero k y hy

/-! ### The number of instances (D18) -/

theorem step_withinInstances {p : Config.OpenParams} {s t : State} (h : withinInstances p s)
    (hstep : step s = .next t) : withinInstances p t := by
  obtain ⟨hinstances, hpending⟩ := h
  cases hp : s.host.pending with
  | nil => cases (step_nil hp).symm.trans hstep; exact ⟨hinstances, hpending⟩
  | cons q rest =>
    cases (step_eq_effect hp).symm.trans hstep
    rw [hp] at hpending
    refine ⟨fun k y hy => ?_, fun q' hq' => ?_⟩
    · by_cases hk : k = q.port
      · exact hk ▸ hpending q List.mem_cons_self
      · rw [Effect.apply_other _ (served s q rest) hk] at hy
        exact hinstances k y hy
    · rw [Effect.apply_pending] at hq'
      exact hpending q' (List.mem_cons_of_mem q hq')

/-- The numbers of a canonical list are distinct. -/
theorem nodup_of_canonical {m : List (Nat × Instance)} (h : canonical m = true) : (m.map Prod.fst).Nodup := by
  rw [canonical_iff_pairwise] at h
  exact List.pairwise_map.mpr (h.imp fun hlt => hlt.ne)

theorem length_le_of_admitsPort {p : Config.OpenParams} {n : Nat} {m : List (Nat × Instance)} (hn : p.ninst = some n)
    (hm : canonical m = true) (h : ∀ k x, instanceAt m k = some x → p.admitsPort k = true) : m.length ≤ n := by
  have below : m.map Prod.fst ⊆ List.range n := by
    intro k hk
    obtain ⟨⟨k, x⟩, hmem, rfl⟩ := List.mem_map.mp hk
    have := h k x (instanceAt_of_mem hm hmem)
    simpa [Config.OpenParams.admitsPort, hn] using this
  simpa using ((nodup_of_canonical hm).subperm below).length_le

/-- Settles O49: only the instance of a pending request is written, and distinct numbers below n are at most n. -/
theorem everyStepStaysWithinTheInstances : Obligations.EveryStepStaysWithinTheInstances :=
  ⟨fun _ _ _ => step_withinInstances, fun _ _ _ hn hcanonical h => length_le_of_admitsPort hn hcanonical h.1⟩

/-! ### Two instances (20_memory.md R36) -/

/-- Two requests to two instances: each has the effect it has alone. -/
theorem runSteps_two {s : State} {q q' : Request} {e e' : Effect} (hne : q'.port ≠ q.port)
    (he : eventEffect q.event (instanceAt s.instances q.port) = e)
    (he' : eventEffect q'.event (instanceAt s.instances q'.port) = e') :
    runSteps 2 (withRequests s [q, q']) = .next (e'.apply (served (e.apply (served s q [q'])) q' [])) := by
  have first : step (withRequests s [q, q']) = .next (e.apply (served s q [q'])) := step_of_effect rfl he
  have second := step_of_effect (s := e.apply (served s q [q'])) (e.apply_pending _)
    ((congrArg (eventEffect q'.event) (e.apply_other (served s q [q']) hne)).trans he')
  rw [runSteps_succ first, runSteps_succ second, runSteps_zero]

/-- Effects on two instances, one after the other. -/
theorem instanceAt_apply_apply (e e' : Effect) (s : State) {q q' : Request} (rest rest' : List Request)
    (hne : q'.port ≠ q.port) (j : Nat) :
    instanceAt (e'.apply (served (e.apply (served s q rest)) q' rest')).instances j =
      if j = q'.port then e'.instanceAfter (instanceAt s.instances q'.port)
      else if j = q.port then e.instanceAfter (instanceAt s.instances q.port) else instanceAt s.instances j := by
  have untouched : instanceAt (e.apply (served s q rest)).instances q'.port = instanceAt s.instances q'.port :=
    e.apply_other (served s q rest) hne
  simp only [Effect.apply_instanceAt, State.current, untouched]

theorem repliesOf_apply_apply (e e' : Effect) (s : State) (q q' : Request) (rest rest' : List Request) (k : Nat) :
    repliesOf k (e'.apply (served (e.apply (served s q rest)) q' rest')) =
      repliesOf k s ++ (if k = q.port then e.responses else []) ++ if k = q'.port then e'.responses else [] := by
  have first : repliesOf k (e.apply (served s q rest)) = repliesOf k s ++ if k = q.port then e.responses else [] :=
    e.repliesOf_apply (served s q rest) k
  rw [← first]
  exact e'.repliesOf_apply (served (e.apply (served s q rest)) q' rest') k

/-- Settles O34: what an instance is after both, and is answered, does not depend on the order. -/
theorem differentInstancesCommute : Obligations.DifferentInstancesCommute := by
  intro s q q' hcanonical hne
  refine ⟨_, _, runSteps_two hne.symm rfl rfl, runSteps_two hne rfl rfl, ?_, fun k => ?_⟩
  · refine canonical_ext (Effect.canonical_apply _ (Effect.canonical_apply _ hcanonical))
      (Effect.canonical_apply _ (Effect.canonical_apply _ hcanonical)) fun j => ?_
    rw [instanceAt_apply_apply _ _ _ _ _ hne.symm, instanceAt_apply_apply _ _ _ _ _ hne]
    grind
  · rw [repliesOf_apply_apply, repliesOf_apply_apply]
    grind

end Sys2Proof.Proofs
end

section
/-! PROOFS. Runs of commands to one instance (30_encoding.md R53): what a list of operations answers and leaves (R72,
R76, R78, R80, R85; O27, O29, O37, O40, O45). -/

namespace Sys2Proof.Proofs

open Sys2Proof.Machine Sys2Proof.Safety

/-! ### A list of operations on one instance -/

/-- What the operations, issued one after the other to an instance, leave of it. -/
def instanceAfterOps : List Instr → Option Instance → Option Instance
  | [], c => c
  | i :: is, c => instanceAfterOps is ((opEffect i c).instanceAfter c)

/-- What the operations, issued one after the other to an instance, are answered. -/
def responsesToOps : List Instr → Option Instance → List Response
  | [], _ => []
  | i :: is, c => (opEffect i c).responses ++ responsesToOps is ((opEffect i c).instanceAfter c)

/-- A run of commands to one instance is what `instanceAfterOps` and `responsesToOps` compute of that instance. -/
theorem runSteps_ops_replies (s : State) (k : Nat) (is : List Instr) : ∃ t,
    runSteps is.length (withRequests s (is.map (requestOf k))) = .next t ∧
      instanceAt t.instances k = instanceAfterOps is (instanceAt s.instances k) ∧
      (∀ j, j ≠ k → instanceAt t.instances j = instanceAt s.instances j) ∧
      t.host.replies = s.host.replies ++ (responsesToOps is (instanceAt s.instances k)).map (⟨k, ·⟩) := by
  induction is generalizing s with
  | nil => exact ⟨_, rfl, rfl, fun _ _ => rfl, (List.append_nil _).symm⟩
  | cons i is ih =>
    let before := served s (requestOf k i) (is.map (requestOf k))
    let e := opEffect i (instanceAt s.instances k)
    have first : step (withRequests s ((i :: is).map (requestOf k))) = .next (e.apply before) :=
      step_of_effect rfl (eventEffect_requestOf k i _)
    have left : instanceAt (e.apply before).instances k = e.instanceAfter (instanceAt s.instances k) :=
      e.apply_instanceAfter before
    have answered : (e.apply before).host.replies = s.host.replies ++ e.replies k := e.apply_replies before
    obtain ⟨t, ht, hk, hother, hreplies⟩ := ih (e.apply before)
    rw [withRequests_of_pending (e.apply_pending before)] at ht
    rw [left] at hk hreplies
    refine ⟨t, (runSteps_succ first).trans ht, hk, fun j hj => (hother j hj).trans (e.apply_other before hj),
      hreplies.trans ?_⟩
    rw [answered, Effect.replies_eq_map, List.append_assoc, ← List.map_append]
    rfl

theorem runSteps_ops (s : State) (k : Nat) (is : List Instr) : ∃ t,
    runSteps is.length (withRequests s (is.map (requestOf k))) = .next t ∧
      instanceAt t.instances k = instanceAfterOps is (instanceAt s.instances k) ∧
      (∀ j, j ≠ k → instanceAt t.instances j = instanceAt s.instances j) ∧
      responsesFrom s.host.replies.length t = responsesToOps is (instanceAt s.instances k) := by
  obtain ⟨t, ht, hk, hother, hreplies⟩ := runSteps_ops_replies s k is
  refine ⟨t, ht, hk, hother, ?_⟩
  rw [responsesFrom_append hreplies, List.map_map]
  exact List.map_id _

/-! ### Operations on a running instance -/

theorem instanceAfterOps_cons_running (i : Instr) (is : List Instr) (x : Instance) :
    instanceAfterOps (i :: is) (some x) = instanceAfterOps is (some (opOn i x).2) := by
  rw [instanceAfterOps, instanceAfter_opEffect_running]

theorem responsesToOps_cons_running (i : Instr) (is : List Instr) (x : Instance) :
    responsesToOps (i :: is) (some x) = .ok (opOn i x).1 :: responsesToOps is (some (opOn i x).2) := by
  rw [responsesToOps, instanceAfter_opEffect_running, responses_opEffect_running, List.singleton_append]

theorem instanceAfterOps_running {is : List Instr} (h : ∀ i ∈ is, needsReady i = true) (x : Instance) :
    instanceAfterOps is (some x) = some { x with regs := stateAfter x.regs (is.map bitsConsumed).sum } := by
  induction is generalizing x with
  | nil => rfl
  | cons i is ih =>
    obtain ⟨hi, his⟩ := List.forall_mem_cons.mp h
    rw [instanceAfterOps_cons_running, opOn_instance hi, ih his, ← stateAfter_add, List.map_cons, List.sum_cons]

/-- On a running instance every operation is answered OK. -/
theorem responsesToOps_running (is : List Instr) (x : Instance) :
    (responsesToOps is (some x)).length = is.length ∧ ∀ r ∈ responsesToOps is (some x), r.status = .ok := by
  induction is generalizing x with
  | nil => exact ⟨rfl, fun r hr => by cases hr⟩
  | cons i is ih =>
    obtain ⟨hlength, hstatus⟩ := ih (opOn i x).2
    rw [responsesToOps_cons_running]
    exact ⟨congrArg Nat.succ hlength, List.forall_mem_cons.mpr ⟨rfl, hstatus⟩⟩

/-- Settles O29. -/
theorem registersCountTheKeystreamBits : Obligations.RegistersCountTheKeystreamBits := by
  intro s k x is hx his
  obtain ⟨t, ht, hk, -, hresponses⟩ := runSteps_ops s k is
  rw [hx] at hk hresponses
  rw [instanceAfterOps_running his] at hk
  obtain ⟨hlength, hstatus⟩ := responsesToOps_running is x
  rw [← hresponses] at hlength hstatus
  exact ⟨t, ht, hk, hlength, hstatus⟩

/-! ### XORBYTES and TRIVIUM_XOR as commands -/

theorem xorBytesRequests_eq_map (k : Nat) (data : ByteSeq) :
    xorBytesRequests k data = (data.map Instr.xorbyte).map (requestOf k) := by
  rw [List.map_map]
  rfl

/-- One XORBYTE per byte computes XORBYTES. -/
theorem ops_xorbyte (x : Instance) (data : ByteSeq) :
    instanceAfterOps (data.map .xorbyte) (some x) = some (x.xorBytes data).2 ∧
      responsesToOps (data.map .xorbyte) (some x) = (x.xorBytes data).1.map fun b => .ok (.byte b) := by
  induction data generalizing x with
  | nil => exact ⟨rfl, rfl⟩
  | cons d ds ih =>
    obtain ⟨hlast, hbytes⟩ := ih (x.xorByte d).2
    rw [List.map_cons, instanceAfterOps_cons_running, responsesToOps_cons_running]
    exact ⟨hlast, congrArg (Response.ok (.byte (x.xorByte d).1) :: ·) hbytes⟩

/-- Settles O37. -/
theorem xorbyteCommandsComputeXorbytes : Obligations.XorbyteCommandsComputeXorbytes := by
  intro s k x data hx
  obtain ⟨t, ht, hk, hother, hresponses⟩ := runSteps_ops s k (data.map .xorbyte)
  obtain ⟨hlast, hbytes⟩ := ops_xorbyte x data
  rw [List.length_map, ← xorBytesRequests_eq_map] at ht
  rw [hx] at hk hresponses
  exact ⟨t, ht, hk.trans hlast, hother, hresponses.trans hbytes⟩

/-- INIT acts on any instance, running or not (D10), and what follows acts on the new one. -/
theorem responsesToOps_init (key iv : ByteSeq) (o : BitOrder) (p : PackOrder) (is : List Instr) (c : Option Instance) :
    responsesToOps (.init key iv o p :: is) c = .ok .nothing :: responsesToOps is (some (newInstance key iv o p)) := by
  rw [responsesToOps]
  rfl

theorem triviumXorRequests_of_next {k : Nat} {key iv data : ByteSeq} {token : Option Token} {qs : List Request}
    (h : triviumXorRequests k key iv data token = .next qs) : ∃ o, parseBitOrder token = .next o ∧
      qs = (.init key iv o .lsbFirst :: data.map Instr.xorbyte).map (requestOf k) := by
  rw [triviumXorRequests] at h
  cases ho : parseBitOrder token with
  | next o =>
    rw [ho] at h
    refine ⟨o, rfl, ?_⟩
    rw [List.map_cons, ← xorBytesRequests_eq_map]
    exact (Host.Outcome.next.inj h).symm
  | fault f => rw [ho] at h; cases h
  | refused r => rw [ho] at h; cases h

/-- Settles O40. -/
theorem triviumXorCommandsComputeTriviumXor : Obligations.TriviumXorCommandsComputeTriviumXor := by
  intro s k key iv data token qs hqs
  obtain ⟨o, ho, rfl⟩ := triviumXorRequests_of_next hqs
  obtain ⟨t, ht, -, hother, hresponses⟩ := runSteps_ops s k (.init key iv o .lsbFirst :: data.map .xorbyte)
  refine ⟨t, _, triviumXor_of_parse_next ho key iv data, by rwa [List.length_map], ?_, hother⟩
  rw [hresponses, responsesToOps_init, (ops_xorbyte _ data).2]

/-! ### KSBYTE commands -/

/-- Settles O45. -/
theorem sameOperandsGiveTheSameKeystream : Obligations.SameOperandsGiveTheSameKeystream := by
  intro s s' k k' n key iv o p
  obtain ⟨hlength, hstatus⟩ := responsesToOps_running (List.replicate n .ksbyte) (newInstance key iv o p)
  obtain ⟨t, ht, -, -, hresponses⟩ := runSteps_ops s k (.init key iv o p :: List.replicate n .ksbyte)
  obtain ⟨t', ht', -, -, hresponses'⟩ := runSteps_ops s' k' (.init key iv o p :: List.replicate n .ksbyte)
  rw [responsesToOps_init] at hresponses hresponses'
  rw [List.map_cons, List.map_replicate, List.length_cons, List.length_replicate] at ht ht'
  rw [List.length_replicate] at hlength
  refine ⟨t, t', ht, ht', hresponses.trans hresponses'.symm, ?_, ?_⟩
  · rw [hresponses, List.length_cons, hlength]
  · rw [hresponses]
    exact List.forall_mem_cons.mpr ⟨rfl, hstatus⟩

/-- n ADVANCEs answer the output bits of n advances. -/
theorem responsesToOps_advance (n : Nat) (x : Instance) :
    responsesToOps (List.replicate n .advance) (some x) = (x.regs.produce n).1.map fun z => .ok (.bit z) := by
  induction n generalizing x with
  | zero => rfl
  | succ n ih =>
    rw [List.replicate_succ, responsesToOps_cons_running]
    exact congrArg (Response.ok (.bit x.regs.advance.1) :: ·) (ih x.advance.2)

/-- The eight output bits one KSBYTE packs are the bits of its byte. -/
theorem produce_eight (x : Instance) : (x.regs.produce 8).1 = (List.range 8).map x.ksByte.1.getLsbD := by
  rw [produce_bits]
  exact List.map_congr_left fun j hj => (ksByte_getLsbD x (List.mem_range.mp hj)).symm

theorem runSteps_one {s t : State} (h : runSteps 1 s = .next t) : step s = .next t := by
  obtain ⟨u, hu, -⟩ := everyStepAnswersANextState s
  rw [runSteps_succ hu, runSteps_zero] at h
  rw [hu, h]

/-- Settles O27: the two runs answer the same bits and leave the registers after eight advances. -/
theorem eightAdvancesMakeOneKsbyte : Obligations.EightAdvancesMakeOneKsbyte := by
  intro s k x hx
  obtain ⟨t, ht, hk, hother, hresponses⟩ := runSteps_ops s k (List.replicate 8 .advance)
  obtain ⟨u, hu, hk', hother', hresponses'⟩ := runSteps_ops s k [.ksbyte]
  rw [List.length_replicate, List.map_replicate] at ht
  rw [hx] at hk hk' hresponses hresponses'
  refine ⟨t, u, x.ksByte.1, ht, runSteps_one hu, hresponses', ?_, fun j => ?_⟩
  · rw [hresponses, responsesToOps_advance, produce_eight, List.map_map]
    rfl
  · by_cases hj : j = k
    · rw [hj, hk, hk', instanceAfterOps_running (by decide), instanceAfterOps_running (by decide)]
      rfl
    · rw [hother j hj, hother' j hj]

end Sys2Proof.Proofs
end

section
/-! PROOFS. The bit-order token (30_encoding.md R49, O47) and the one error (60_exceptions.md R90, O48). -/

namespace Sys2Proof.Proofs

open Sys2Proof.Machine

/-! ### Characters -/

theorem isTokenSpace_of_printable {ch : Char} (h : 33 ≤ ch.toNat ∧ ch.toNat ≤ 126) : isTokenSpace ch = false := by
  have ne_space : ch ≠ ' ' := by rintro rfl; exact absurd h (by decide)
  rw [isTokenSpace, if_neg ne_space, if_pos h]

/-- Of the characters the spec settles, only the space is whitespace. -/
theorem eq_space_of_isTokenSpace {ch : Char} (h : 32 ≤ ch.toNat ∧ ch.toNat ≤ 126) (hs : isTokenSpace ch = true) :
    ch = ' ' := by
  by_contra hne
  have ne_code : ch.toNat ≠ 32 := fun h32 => hne (Char.toNat_inj.mp h32)
  simp [isTokenSpace_of_printable (ch := ch) (by omega)] at hs

theorem isUpper_iff (ch : Char) : ch.isUpper = true ↔ 65 ≤ ch.toNat ∧ ch.toNat ≤ 90 := by
  simp [Char.isUpper, UInt32.le_iff_toNat_le]

theorem foldCase_eq_toLower {ch : Char} (h : ch.toNat ≤ 126) : foldCase ch = [ch.toLower] := by
  by_cases hu : ch.isUpper = true
  · rw [Char.toLower_eq_of_isUpper hu, foldCase, if_pos ((isUpper_iff ch).mp hu)]
  · rw [Char.toLower_eq_of_not_isUpper hu, foldCase, if_neg (mt (isUpper_iff ch).mpr hu), if_pos (by omega)]

/-- A character whose lower case is printable ASCII is itself printable ASCII. -/
theorem printable_of_toLower {ch : Char} (h : 33 ≤ ch.toLower.toNat ∧ ch.toLower.toNat ≤ 126) :
    33 ≤ ch.toNat ∧ ch.toNat ≤ 126 := by
  by_cases hu : ch.isUpper = true
  · have := (isUpper_iff ch).mp hu
    omega
  · rwa [Char.toLower_eq_of_not_isUpper hu] at h

/-! ### Trimming -/

theorem dropWhile_spaces_append (m : Nat) (l : Token) :
    (List.replicate m ' ' ++ l).dropWhile isTokenSpace = l.dropWhile isTokenSpace :=
  List.dropWhile_append_of_pos fun ch hch => by rw [List.eq_of_mem_replicate hch]; rfl

/-- Spaces around a token that has none go, and nothing else. -/
theorem trimToken_pad (m n : Nat) {w : Token} (h : ∀ ch ∈ w, isTokenSpace ch = false) :
    trimToken (List.replicate m ' ' ++ w ++ List.replicate n ' ') = w := by
  have keep {l : Token} (hl : ∀ ch ∈ l, isTokenSpace ch = false) : l.dropWhile isTokenSpace = l := by
    rw [List.dropWhile_eq_self_iff]
    intro hpos
    simp [hl _ (List.getElem_mem hpos)]
  cases w with
  | nil => simp [trimToken, isTokenSpace]
  | cons c cs =>
    have front : (c :: cs ++ List.replicate n ' ').dropWhile isTokenSpace = c :: cs ++ List.replicate n ' ' :=
      List.dropWhile_cons_of_neg (by simp [h c List.mem_cons_self])
    have back : ∀ ch ∈ (c :: cs).reverse, isTokenSpace ch = false := fun ch hch => h ch (List.mem_reverse.mp hch)
    rw [trimToken, List.append_assoc, dropWhile_spaces_append, front, List.reverse_append, List.reverse_replicate,
      dropWhile_spaces_append, keep back, List.reverse_reverse]

theorem exists_spaces_append_dropWhile {t : Token} (h : ∀ ch ∈ t, isTokenSpace ch = true → ch = ' ') :
    ∃ m, t = List.replicate m ' ' ++ t.dropWhile isTokenSpace := by
  refine ⟨(t.takeWhile isTokenSpace).length, ?_⟩
  have spaces : t.takeWhile isTokenSpace = List.replicate (t.takeWhile isTokenSpace).length ' ' :=
    List.eq_replicate_iff.mpr ⟨rfl, fun ch hch =>
      h ch ((List.takeWhile_prefix _).subset hch) (List.mem_takeWhile_imp hch)⟩
  rw [← spaces, List.takeWhile_append_dropWhile]

/-- A token whose whitespace is spaces is its trimmed form with spaces around. -/
theorem exists_pad_trimToken {t : Token} (h : ∀ ch ∈ t, isTokenSpace ch = true → ch = ' ') :
    ∃ m n, t = List.replicate m ' ' ++ trimToken t ++ List.replicate n ' ' := by
  obtain ⟨m, hm⟩ := exists_spaces_append_dropWhile h
  obtain ⟨n, hn⟩ := exists_spaces_append_dropWhile (t := (t.dropWhile isTokenSpace).reverse) fun ch hch =>
    h ch ((List.dropWhile_suffix _).subset (List.mem_reverse.mp hch))
  refine ⟨m, n, ?_⟩
  have := congrArg List.reverse hn
  rw [List.reverse_reverse, List.reverse_append, List.reverse_replicate] at this
  rw [List.append_assoc, trimToken, ← this, ← hm]

theorem normaliseToken_eq_map_toLower {t : Token} (h : ∀ ch ∈ trimToken t, ch.toNat ≤ 126) :
    normaliseToken t = (trimToken t).map Char.toLower := by
  rw [normaliseToken, List.flatMap_congr fun ch hch => foldCase_eq_toLower (h ch hch), ← List.map_eq_flatMap]

/-! ### The table of R49 -/

/-- The accepted spellings are printable ASCII and not empty. -/
theorem spellings_printable : ∀ l ∈ msbSpellings ++ lsbSpellings,
    l ≠ [] ∧ ∀ ch ∈ l, 33 ≤ ch.toNat ∧ ch.toNat ≤ 126 := by
  simp [msbSpellings, lsbSpellings]

theorem not_mem_msbSpellings_of_mem_lsbSpellings : ∀ l ∈ lsbSpellings, l ∉ msbSpellings := by
  decide

/-- An accepted spelling in any case with spaces around it is normalised to the spelling. -/
theorem normaliseToken_spelling (m n : Nat) {w : Token} (h : w.map Char.toLower ∈ msbSpellings ++ lsbSpellings) :
    trimToken (List.replicate m ' ' ++ w ++ List.replicate n ' ') ≠ [] ∧
      normaliseToken (List.replicate m ' ' ++ w ++ List.replicate n ' ') = w.map Char.toLower := by
  obtain ⟨hne, hch⟩ := spellings_printable _ h
  have printable : ∀ ch ∈ w, 33 ≤ ch.toNat ∧ ch.toNat ≤ 126 := fun ch hmem =>
    printable_of_toLower (hch _ (List.mem_map_of_mem hmem))
  have trimmed := trimToken_pad m n fun ch hmem => isTokenSpace_of_printable (printable ch hmem)
  refine ⟨by rw [trimmed]; simpa using hne, ?_⟩
  rw [normaliseToken_eq_map_toLower fun ch hmem => (printable ch (trimmed ▸ hmem)).2, trimmed]

theorem parseBitOrder_msb {t : Token} (hne : trimToken t ≠ []) (h : normaliseToken t ∈ msbSpellings) :
    parseBitOrder (some t) = .next .msbFirst := by
  rw [parseBitOrder, if_neg hne, if_pos h]

theorem parseBitOrder_lsb {t : Token} (hne : trimToken t ≠ []) (h : normaliseToken t ∈ lsbSpellings) :
    parseBitOrder (some t) = .next .lsbFirst := by
  rw [parseBitOrder, if_neg hne, if_neg (not_mem_msbSpellings_of_mem_lsbSpellings _ h), if_pos h]

theorem parseBitOrder_fault {t : Token} (hne : trimToken t ≠ []) (h : normaliseToken t ∉ msbSpellings ++ lsbSpellings) :
    parseBitOrder (some t) = .fault (.invalidBitOrderToken t) := by
  rw [List.mem_append, not_or] at h
  rw [parseBitOrder, if_neg hne, if_neg h.1, if_neg h.2]

/-- Settles O47: of a printable token the trimmed form is what stands between its spaces. -/
theorem tokenTableIsRead : Obligations.TokenTableIsRead := by
  refine ⟨rfl, fun m n w hw => ?_, fun m n w hw => ?_, fun m => ?_, fun t hprintable ⟨ch, hch, hne⟩ hnone => ?_⟩
  · obtain ⟨hne, hnorm⟩ := normaliseToken_spelling m n (List.mem_append_left _ hw)
    exact parseBitOrder_msb hne (hnorm ▸ hw)
  · obtain ⟨hne, hnorm⟩ := normaliseToken_spelling m n (List.mem_append_right _ hw)
    exact parseBitOrder_lsb hne (hnorm ▸ hw)
  · have empty : trimToken (List.replicate m ' ') = [] := by simpa using trimToken_pad m 0 (w := []) (by simp)
    rw [parseBitOrder, if_pos empty]
  · obtain ⟨m, n, ht⟩ := exists_pad_trimToken fun ch hch => eq_space_of_isTokenSpace (hprintable ch hch)
    have within : ∀ ch ∈ trimToken t, ch ∈ t := fun ch hmem => by rw [ht]; simp [hmem]
    refine parseBitOrder_fault (fun hempty => hne ?_) ?_
    · rw [ht, hempty, List.append_nil] at hch
      exact (List.mem_append.mp hch).elim List.eq_of_mem_replicate List.eq_of_mem_replicate
    · rw [normaliseToken_eq_map_toLower fun ch hmem => (hprintable ch (within ch hmem)).2]
      exact hnone m n _ ht

/-! ### The one error -/

theorem triviumXor_fault_iff (key iv data : ByteSeq) (token : Option Token) (f : Fault) :
    triviumXor key iv data token = .fault f ↔ parseBitOrder token = .fault f := by
  cases h : parseBitOrder token with
  | next o => simp [triviumXor_of_parse_next h]
  | fault g => simp [triviumXor_of_parse_fault h]
  | refused r => simp [triviumXor, h]

theorem parseBitOrder_fault_token {token : Option Token} {f : Fault} (h : parseBitOrder token = .fault f) :
    ∃ v, token = some v ∧ f = .invalidBitOrderToken v := by
  cases token with
  | none => cases h
  | some v =>
    rw [parseBitOrder] at h
    split_ifs at h
    cases h
    exact ⟨v, rfl, rfl⟩

theorem isInfix_iff_exists_eq_append (v m : Token) : v <:+: m ↔ ∃ p q, m = p ++ v ++ q :=
  exists_congr fun _ => exists_congr fun _ => eq_comm

theorem messageAllowed_iff (v m : Token) : (Fault.invalidBitOrderToken v).messageAllowed m = true ↔
    (∃ p q, m = p ++ v ++ q) ∧ (∃ p q, m = p ++ ['m', 's', 'b'] ++ q) ∧ ∃ p q, m = p ++ ['l', 's', 'b'] ++ q := by
  rw [Fault.messageAllowed, Bool.and_eq_true, Bool.and_eq_true, decide_eq_true_iff, decide_eq_true_iff,
    decide_eq_true_iff, isInfix_iff_exists_eq_append, isInfix_iff_exists_eq_append, isInfix_iff_exists_eq_append,
    and_assoc]

/-- Settles O48. -/
theorem theOnlyErrorIsTheInvalidToken : Obligations.TheOnlyErrorIsTheInvalidToken := by
  refine ⟨triviumXor_fault_iff, fun token f h => ?_, messageAllowed_iff⟩
  obtain ⟨v, htoken, hf⟩ := parseBitOrder_fault_token h
  exact ⟨v, htoken, hf, by rw [hf]; rfl⟩

end Sys2Proof.Proofs
end
